-- ==== Sys2Proof/Word.lean ====
section
/-! DEFINITION. The two bit-vector types of the machine. Every register, literal and address is an
unsigned 16-bit number, every memory cell, opcode and register id an unsigned 8-bit one (R6, R8, R15). -/

namespace Sys2Proof

/-- An unsigned 8-bit value: a memory cell, an opcode byte or a register-id operand (R6, R8). -/
abbrev Byte := BitVec 8

/-- An unsigned 16-bit value (the spec's `u16`): a register, a literal, an address held in `ip` (R6, R8). -/
abbrev Word := BitVec 16

end Sys2Proof
end

