-- ==== Sys2Proof/Config.lean ====
section
/-! DEFINITION. What is fixed for one engine: the opcode assignment `OPC` as a parameter (R6, R7, R30), the
number of registers, and the memory size the model's own reset state is built with. The hardware leaves no
value free, so there is no opaque constant here. -/

namespace Sys2Proof

/-- An opcode assignment `OPC`: the byte of each of the five opcodes (R6, R64). The default assignment is
`Sys2Proof.opcDefault` (Decode.lean). A claim that must hold of any assignment quantifies over this type. -/
structure OpcodeMap where
  movLitReg : Byte
  movLitR1 : Byte
  movLitR2 : Byte
  addRegReg : Byte
  endExec : Byte
deriving DecidableEq, Repr

/-- `REG_COUNT`: the register ids are 0 to 9 (R6, R14). -/
def Config.regCount : Nat := 10

/-- The largest value `ip` can hold; a fetch never carries it past this (R18, R20). -/
def Config.maxAddr : Nat := 0xFFFF

/-- The memory size of `State.reset`. DESIGN CHOICE (log entry 1), unsafe: the spec leaves `MEM_SIZE` open
(R6, D7), so a claim quantifies over `State.construct n`; this number only fixes the one closed reset state
the interface asks for, with every 16-bit offset inside the memory. -/
def Config.resetMemSize : Nat := 0x10000

end Sys2Proof
end

