-- ==== Sys2Proof/Syntax.lean ====
section
/-! DEFINITION. The instruction set as syntax: the ten register names, the five opcodes, the instructions
with their operands as decoded, and the spec's line notation for programs. -/

namespace Sys2Proof

/-- The closed table of register names (R14). No other register exists. -/
inductive RegId where
  | ip | acc | r1 | r2 | r3 | r4 | r5 | r6 | r7 | r8
deriving DecidableEq, Repr

/-- The five assigned opcodes (R64). -/
inductive Opcode where
  | movLitReg | movLitR1 | movLitR2 | addRegReg | endExec
deriving DecidableEq, Repr

/-- One instruction, one constructor per row of the opcode table. A register-id operand stays the byte the
stream holds: every value from 0 to 255 decodes, and an id of 10 or more shows its effect only when the
instruction uses it (R63). -/
inductive Instr where
  /-- MOV_LIT_REG, format LR (R60, R100): literal first, register id last. -/
  | movLitReg (lit : Word) (rd : Byte)
  /-- MOV_LIT_R1, format L (R59, R102). -/
  | movLitR1 (lit : Word)
  /-- MOV_LIT_R2, format L (R59, R104). -/
  | movLitR2 (lit : Word)
  /-- ADD_REG_REG, format RR (R61, R106). -/
  | addRegReg (ra rb : Byte)
  /-- END, format N (R58, R108). -/
  | endExec
deriving DecidableEq, Repr

/-- One line of the spec's notation (R70): an instruction, or `.byte` with raw bytes. A register operand
written `#n` is the raw id byte of the instruction; a name stands for `RegId.toByte`. -/
inductive AsmLine where
  | instr (i : Instr)
  | raw (bytes : List Byte)
deriving DecidableEq, Repr

/-- Why a byte list is no instruction: the decoder rejects by name (R66, R68). -/
inductive DecodeError where
  /-- The opcode byte is not one of the five assigned values (R66, R110). -/
  | unassigned (opcode : Byte)
  /-- The bytes end before the instruction does (R68). -/
  | truncated
deriving DecidableEq, Repr

end Sys2Proof
end

