-- ==== Sys2Proof/WellFormed.lean ====
section
/-! DEFINITION. The checks on syntax: register-id operands that name a register (R63, R67), and opcode
assignments that map the five opcodes to five distinct bytes (R65). -/

namespace Sys2Proof

/-- The id byte is below `REG_COUNT`, so it names a register (R14, R63). -/
def regIdOk (id : Byte) : Bool := decide (id.toNat < Config.regCount)

/-- Every register-id operand names a register. The ids 10 to 255 are the only reserved field values (R67);
an instruction that holds one still decodes and runs, and halts with `BadMemoryAccess` (R63, R88). -/
def Instr.wf : Instr → Bool
  | .movLitReg _ rd => regIdOk rd
  | .movLitR1 _ => true
  | .movLitR2 _ => true
  | .addRegReg ra rb => regIdOk ra && regIdOk rb
  | .endExec => true

/-- The five bytes of an assignment, in the table's order. -/
def OpcodeMap.bytes (m : OpcodeMap) : List Byte :=
  [m.movLitReg, m.movLitR1, m.movLitR2, m.addRegReg, m.endExec]

/-- `OPC` is injective: the five opcodes have five distinct bytes (R65). -/
def OpcodeMap.wf (m : OpcodeMap) : Bool := decide m.bytes.Nodup

end Sys2Proof
end

