-- ==== Sys2Proof/Decode.lean ====
section
/-! DEFINITION. Encodings: byte order, register ids, the opcode map, the decoder (total on any bytes,
rejecting by name) and, after it, the encoder. -/

namespace Sys2Proof

/-! ## Byte order -/

/-- `a ++ b` of the spec's notation (R8): a 16-bit unit is big-endian, the byte at the lower offset is bits
15 to 8 (R39, R62). -/
def joinBytes (hi lo : Byte) : Word := hi ++ lo

/-- `v[15:8]`. -/
def hiByte (v : Word) : Byte := v.extractLsb' 8 8

/-- `v[7:0]`. -/
def loByte (v : Word) : Byte := v.extractLsb' 0 8

/-! ## Registers by id and by name -/

/-- The register's id: its position in the canonical name table (R14). -/
def RegId.toNat : RegId → Nat
  | .ip => 0 | .acc => 1 | .r1 => 2 | .r2 => 3 | .r3 => 4
  | .r4 => 5 | .r5 => 6 | .r6 => 7 | .r7 => 8 | .r8 => 9

/-- The register's id as an operand byte (R63, R70). -/
def RegId.toByte (r : RegId) : Byte := BitVec.ofNat 8 r.toNat

/-- The register's name (R14). -/
def RegId.name : RegId → String
  | .ip => "ip" | .acc => "acc" | .r1 => "r1" | .r2 => "r2" | .r3 => "r3"
  | .r4 => "r4" | .r5 => "r5" | .r6 => "r6" | .r7 => "r7" | .r8 => "r8"

/-- The canonical name table, in the order of the ids (R14). -/
def RegId.all : List RegId := [.ip, .acc, .r1, .r2, .r3, .r4, .r5, .r6, .r7, .r8]

/-- The register an id byte selects. An id of 10 or more selects none: it is neither masked, nor reduced
modulo 10, nor remapped (R63, R88). -/
def RegId.ofByte? (id : Byte) : Option RegId :=
  match id.toNat with
  | 0 => some .ip | 1 => some .acc | 2 => some .r1 | 3 => some .r2 | 4 => some .r3
  | 5 => some .r4 | 6 => some .r5 | 7 => some .r6 | 8 => some .r7 | 9 => some .r8
  | _ => none

/-- The register with a name, if the name is one of the ten (R14, R25). -/
def RegId.ofName? (name : String) : Option RegId := RegId.all.find? (fun r => r.name == name)

/-! ## Opcodes -/

/-- The default opcode assignment (R6, R64). -/
def opcDefault : OpcodeMap :=
  { movLitReg := 0x10, movLitR1 := 0x11, movLitR2 := 0x12, addRegReg := 0x14, endExec := 0xFF }

/-- `OPC(name)`: the byte of an opcode under an assignment (R7). -/
def OpcodeMap.byteOf (m : OpcodeMap) : Opcode → Byte
  | .movLitReg => m.movLitReg
  | .movLitR1 => m.movLitR1
  | .movLitR2 => m.movLitR2
  | .addRegReg => m.addRegReg
  | .endExec => m.endExec

/-- Dispatch on the whole opcode byte: all 8 bits are compared for equality with each assigned value
(R84, R85); any other byte is unassigned (R66). -/
def OpcodeMap.opcodeOf (m : OpcodeMap) (b : Byte) : Option Opcode :=
  if b = m.movLitReg then some .movLitReg
  else if b = m.movLitR1 then some .movLitR1
  else if b = m.movLitR2 then some .movLitR2
  else if b = m.addRegReg then some .addRegReg
  else if b = m.endExec then some .endExec
  else none

/-- The length in bytes of an instruction is a function of its opcode alone (R57). -/
def Opcode.length : Opcode → Nat
  | .movLitReg => 4
  | .movLitR1 => 3
  | .movLitR2 => 3
  | .addRegReg => 3
  | .endExec => 1

/-- The opcode of an instruction. -/
def Instr.opcode : Instr → Opcode
  | .movLitReg _ _ => .movLitReg
  | .movLitR1 _ => .movLitR1
  | .movLitR2 _ => .movLitR2
  | .addRegReg _ _ => .addRegReg
  | .endExec => .endExec

/-- The length in bytes of an instruction (R57). -/
def Instr.length (i : Instr) : Nat := i.opcode.length

/-! ## The decoder -/

/-- The operands of an instruction, read from the bytes after its opcode in encoded order: format LR
(R60), L (R59), RR (R61) or N (R58), as the opcode map gives them (R64). The rest of the bytes is given
back. `none` when the bytes end first. -/
def decodeOperands : Opcode → List Byte → Option (Instr × List Byte)
  | .movLitReg, hi :: lo :: rd :: rest => some (.movLitReg (joinBytes hi lo) rd, rest)
  | .movLitReg, _ => none
  | .movLitR1, hi :: lo :: rest => some (.movLitR1 (joinBytes hi lo), rest)
  | .movLitR1, _ => none
  | .movLitR2, hi :: lo :: rest => some (.movLitR2 (joinBytes hi lo), rest)
  | .movLitR2, _ => none
  | .addRegReg, ra :: rb :: rest => some (.addRegReg ra rb, rest)
  | .addRegReg, _ => none
  | .endExec, rest => some (.endExec, rest)

/-- Decode the first instruction of a byte list and give back the bytes after it (R56, R57). Total on any
bytes (R68): no byte at all or too few is `truncated`, an unassigned opcode is rejected whatever follows it
(R110). -/
def decode (m : OpcodeMap) : List Byte → Except DecodeError (Instr × List Byte)
  | [] => .error .truncated
  | b :: rest =>
    match m.opcodeOf b with
    | none => .error (.unassigned b)
    | some op =>
      match decodeOperands op rest with
      | none => .error .truncated
      | some r => .ok r

/-! ## The encoder -/

/-- The bytes of an instruction in fetch order, from the formats N, L, LR and RR (R58 to R61). -/
def encode (m : OpcodeMap) : Instr → List Byte
  | .movLitReg lit rd => [m.byteOf .movLitReg, hiByte lit, loByte lit, rd]
  | .movLitR1 lit => [m.byteOf .movLitR1, hiByte lit, loByte lit]
  | .movLitR2 lit => [m.byteOf .movLitR2, hiByte lit, loByte lit]
  | .addRegReg ra rb => [m.byteOf .addRegReg, ra, rb]
  | .endExec => [m.byteOf .endExec]

/-- The bytes of one line of the spec's notation (R70). -/
def AsmLine.encode (m : OpcodeMap) : AsmLine → List Byte
  | .instr i => Sys2Proof.encode m i
  | .raw bytes => bytes

/-- The bytes of a program in the spec's notation, from offset 0 (R70). -/
def assemble (m : OpcodeMap) (p : List AsmLine) : List Byte := (p.map (AsmLine.encode m)).flatten

/-- What a label written before line `k` names: the offset of that line's first byte (R70). -/
def labelOffset (m : OpcodeMap) (p : List AsmLine) (k : Nat) : Nat := (assemble m (p.take k)).length

/-! ## Words as the opcode table numbers them -/

/-- The longest instruction, in bytes (R57). -/
def maxInstrBytes : Nat := 4

/-- The low `8 * n` bits of `w` as `n` bytes, the first byte most significant: the word view of R58 to R61
and of spec/opcode_table.json, which reads the bytes in fetch order as one big-endian number (log entry 4). -/
def wordBytes : Nat → Nat → List Byte
  | 0, _ => []
  | n + 1, w => BitVec.ofNat 8 (w / 256 ^ n) :: wordBytes n w

/-- The bytes of a table word of `nbits` bits, with zero bytes after them up to the longest instruction. -/
def tableBytes (nbits w : Nat) : List Byte :=
  let bytes := wordBytes ((nbits + 7) / 8) w
  bytes ++ List.replicate (maxInstrBytes - bytes.length) 0

/-- What the decoder reads, under the default assignment, from a word of spec/opcode_table.json. -/
def decodeTableWord (nbits w : Nat) : Option Instr :=
  match decode opcDefault (tableBytes nbits w) with
  | .error _ => none
  | .ok (i, _) => some i

end Sys2Proof
end

