-- ==== Sys2Proof/Machine/State.lean ====
section
/-! DEFINITION. The architectural state: the triple (mem, reg, run) of R13 as plain data, the reasons a step
can stop, and the state after construction (reset). -/

namespace Sys2Proof.Machine

/-- The three reasons a run ends (R23, R119). The hardware has no numeric codes for them (D11). -/
inductive HaltReason where
  /-- Success: END was executed (R108). -/
  | endOfExecution
  /-- Fault: the opcode byte is unassigned (R110). -/
  | unexpectedInstruction
  /-- Fault: a fetch out of bounds, a fetch that would carry `ip` past 0xFFFF, or a register id of 10 or
  more (R82, R83, R88). -/
  | badMemoryAccess
deriving DecidableEq, Repr

/-- The engine state (R23, R77). -/
inductive RunState where
  | running
  | halted (reason : HaltReason)
deriving DecidableEq, Repr

/-- A Memory: `size` bytes at the offsets below `size` (R28, R36). `cells` lists the bytes that are not 0, at
strictly rising offsets; an offset below `size` with no cell reads as 0, which is what `new(size)` leaves
there (R31). `Memory.wf` (Ops.lean) is that form. -/
structure Memory where
  size : Nat
  cells : List Host.Cell
deriving DecidableEq, Repr

/-- The Register File: ten 16-bit values (R13, R14, R15). `RegFile.bank` (Ops.lean) is the same file as the
20-byte Memory of R24. -/
structure RegFile where
  ip : Word
  acc : Word
  r1 : Word
  r2 : Word
  r3 : Word
  r4 : Word
  r5 : Word
  r6 : Word
  r7 : Word
  r8 : Word
deriving DecidableEq, Repr

/-- The architectural state of one engine (R13). No other state exists (R29): no flags (R21), no control
registers (R22), no modes (R129), no interrupts (R125), no timers (R131). `MEM_SIZE` is `mem.size`, chosen at
construction and never changed (R28). -/
structure State where
  mem : Memory
  regs : RegFile
  run : RunState
deriving DecidableEq, Repr

/-- Why a step has no next state. -/
inductive Fault where
  /-- Raised by `stepWith` (Engine.lean) on an engine that has halted: it has no further transition (R90,
  I7). The state stays as it is and the host's call of `Step` returns `Halted` (`hostStep`). Safe: the model
  stops where the spec says nothing more happens. -/
  | engineHalted (reason : HaltReason)
deriving DecidableEq, Repr

/-- What the model gives no meaning to. -/
inductive Refusal where
  /-- An arm of `exec` with no meaning yet. Raised by none: every instruction has its meaning. Safe. -/
  | notModelled (mnemonic : String)
  /-- Raised by `hostCall` for `get` with a name outside the closed table: such a call does not happen
  (R25, D17). Safe. -/
  | unknownRegisterName (name : String)
  /-- Raised by `hostCall` for a load after the first step (R144, D9, I16). Safe. -/
  | loadAfterFirstStep
  /-- Raised by `hostCall` for a step or a run after a load that failed: the host must not go on to run
  (R142, D8, I8). Safe. -/
  | launchAfterFailedLoad
deriving DecidableEq, Repr

/-- `new(size)`: a Memory of `size` bytes, each 0 (R31, R36). -/
def Memory.new (size : Nat) : Memory := { size := size, cells := [] }

/-- Every register is 0 at construction (R32). -/
def RegFile.zero : RegFile :=
  { ip := 0, acc := 0, r1 := 0, r2 := 0, r3 := 0, r4 := 0, r5 := 0, r6 := 0, r7 := 0, r8 := 0 }

/-- Reset is the construction of a new engine with a host-chosen memory size (R33, R34, R141). -/
def State.construct (n : Nat) : State :=
  { mem := Memory.new n, regs := RegFile.zero, run := .running }

/-- The machine right after reset, for the model's choice of `MEM_SIZE` (log entry 1). No program is in it:
one comes in by the host's load (R142, log entry 5). -/
def State.reset : State := State.construct Config.resetMemSize

end Sys2Proof.Machine
end

