-- ==== Sys2Proof/Machine/Ops.lean ====
section
/-! DEFINITION. The shared operations: memory access, register access by name and by id, halt entry, and the
two fetch primitives. The hardware has no return from a halt (R126), so no operation leaves `halted`. -/

namespace Sys2Proof.Machine

/-! ## Memory -/

/-- What an offset with no cell reads as: a Memory is allocated zero-initialised (R31, R36). -/
def unlistedByte : Byte := 0

/-- Read one offset from a list of cells at rising offsets. -/
def readCells : List Host.Cell → Nat → Byte
  | [], _ => unlistedByte
  | (k, c) :: cs, o => if o < k then unlistedByte else if o = k then c else readCells cs o

/-- Write one offset in a list of cells at rising offsets, keeping the canonical form: writing the byte an
unlisted offset reads as takes the cell out. -/
def writeCells : List Host.Cell → Nat → Byte → List Host.Cell
  | [], o, b => if b = unlistedByte then [] else [(o, b)]
  | (k, c) :: cs, o, b =>
    if o < k then (if b = unlistedByte then (k, c) :: cs else (o, b) :: (k, c) :: cs)
    else if o = k then (if b = unlistedByte then cs else (o, b) :: cs)
    else (k, c) :: writeCells cs o b

/-- Cells at strictly rising offsets from `lo` on and below `size`, none equal to the unlisted byte. -/
def cellsWf (size : Nat) : Nat → List Host.Cell → Bool
  | _, [] => true
  | lo, (k, c) :: cs => decide (lo ≤ k) && decide (k < size) && decide (c ≠ unlistedByte) && cellsWf size (k + 1) cs

/-- The canonical form of a Memory: equal memories are equal data. -/
def Memory.wf (m : Memory) : Bool := cellsWf m.size 0 m.cells

/-- `get_u8(o)` (R37). `none` is the failure `OutOfBounds` (R123). -/
def Memory.getU8 (m : Memory) (o : Nat) : Option Byte :=
  if o ≥ m.size then none else some (readCells m.cells o)

/-- `set_u8(o, b)` (R37). A failed access changes nothing. -/
def Memory.setU8 (m : Memory) (o : Nat) (b : Byte) : Option Memory :=
  if o ≥ m.size then none else some { m with cells := writeCells m.cells o b }

/-- `get_u16(o)` (R38): the bytes at `o` and `o + 1`, big-endian (R39), at any offset, odd or even (R42). -/
def Memory.getU16 (m : Memory) (o : Nat) : Option Word :=
  if o + 1 ≥ m.size then none else some (joinBytes (readCells m.cells o) (readCells m.cells (o + 1)))

/-- `set_u16(o, v)` (R38): the bounds check comes before either byte is written (R40). -/
def Memory.setU16 (m : Memory) (o : Nat) (v : Word) : Option Memory :=
  if o + 1 ≥ m.size then none
  else some { m with cells := writeCells (writeCells m.cells o (hiByte v)) (o + 1) (loByte v) }

/-- The bytes at `n` consecutive offsets from `o`, or `none` if one of them is out of bounds. -/
def Memory.readBytes (m : Memory) (o : Nat) : Nat → Option (List Byte)
  | 0 => some []
  | n + 1 => do
    let b ← m.getU8 o
    let bs ← m.readBytes (o + 1) n
    pure (b :: bs)

/-- Write bytes at consecutive offsets from `o`, one `set_u8` at a time (R43, R142). -/
def Memory.putBytes (m : Memory) (o : Nat) : List Byte → Option Memory
  | [] => some m
  | b :: bs => do
    let m' ← m.setU8 o b
    m'.putBytes (o + 1) bs

/-! ## Registers -/

/-- `x[name]` (R14). -/
def RegFile.get (f : RegFile) : RegId → Word
  | .ip => f.ip | .acc => f.acc | .r1 => f.r1 | .r2 => f.r2 | .r3 => f.r3
  | .r4 => f.r4 | .r5 => f.r5 | .r6 => f.r6 | .r7 => f.r7 | .r8 => f.r8

/-- `x[name] <- v` (R14, R26): no register is hard-wired or read-only (R15). -/
def RegFile.set (f : RegFile) (r : RegId) (v : Word) : RegFile :=
  match r with
  | .ip => { f with ip := v }
  | .acc => { f with acc := v }
  | .r1 => { f with r1 := v }
  | .r2 => { f with r2 := v }
  | .r3 => { f with r3 := v }
  | .r4 => { f with r4 := v }
  | .r5 => { f with r5 := v }
  | .r6 => { f with r6 := v }
  | .r7 => { f with r7 := v }
  | .r8 => { f with r8 := v }

/-- The size of the register bank: two bytes a register (R24). -/
def bankSize : Nat := Config.regCount * 2

/-- The register bank: the Memory of 20 bytes that keeps the Register File, register id `i` at the offsets
`2 * i` (high byte) and `2 * i + 1` (R24, R35). A view: the ten values of `RegFile` are the one home. -/
def RegFile.bank (f : RegFile) : Memory :=
  RegId.all.foldl
    (fun m r => (m.setU16 (2 * r.toNat) (f.get r)).getD m) (Memory.new bankSize)

/-- Read a register of the engine by name. -/
def State.reg (s : State) (r : RegId) : Word := s.regs.get r

/-- Write a register of the engine by name. -/
def State.setReg (s : State) (r : RegId) (v : Word) : State := { s with regs := s.regs.set r v }

/-! ## Halts -/

/-- Halt entry (R120): `run` is set and nothing else changes: nothing is saved, no mode changes, and control
goes to no handler. -/
def haltEntry (reason : HaltReason) (s : State) : State := { s with run := .halted reason }

/-- The result of a part of a step: it goes on with a value, or it stops the step with a halt reason in the
state reached so far (R84, R86). -/
inductive Res (α : Type) where
  | ok (a : α) (s : State)
  | halt (reason : HaltReason) (s : State)
deriving DecidableEq, Repr

/-- Go on only if the part before did: the first operation that fails halts the step, and no later operation
of the step happens (R86). -/
def Res.bind {α β : Type} : Res α → (α → State → Res β) → Res β
  | .ok a s, f => f a s
  | .halt r s, _ => .halt r s

/-- How a step ends: it completes, or it enters `halted` (R120). Either way it has a next state. -/
def Res.outcome : Res Unit → Host.Outcome State Fault Refusal
  | .ok _ s => .next s
  | .halt r s => .next (haltEntry r s)

/-! ## Fetch primitives -/

/-- `FetchU8` (R82): a fetch that fails leaves `ip` unchanged. -/
def fetchU8 (s : State) : Res Byte :=
  match s.mem.getU8 (s.reg .ip).toNat with
  | none => .halt .badMemoryAccess s
  | some b =>
    if (s.reg .ip).toNat + 1 > Config.maxAddr then .halt .badMemoryAccess s
    else .ok b (s.setReg .ip (s.reg .ip + 1))

/-- `FetchU16` (R83): one 16-bit access, so a literal whose second byte is out of bounds leaves `ip`
unchanged. -/
def fetchU16 (s : State) : Res Word :=
  match s.mem.getU16 (s.reg .ip).toNat with
  | none => .halt .badMemoryAccess s
  | some v =>
    if (s.reg .ip).toNat + 2 > Config.maxAddr then .halt .badMemoryAccess s
    else .ok v (s.setReg .ip (s.reg .ip + 2))

/-! ## Register access by id -/

/-- `ReadReg(i)` (R88). -/
def readReg (id : Byte) (s : State) : Res Word :=
  match RegId.ofByte? id with
  | none => .halt .badMemoryAccess s
  | some r => .ok (s.reg r) s

/-- `WriteReg(i, v)` (R88): with id 0 the value replaces the advanced `ip` (R87). -/
def writeReg (id : Byte) (v : Word) (s : State) : Res Unit :=
  match RegId.ofByte? id with
  | none => .halt .badMemoryAccess s
  | some r => .ok () (s.setReg r v)

/-! ## Load -/

/-- `Load(p)` (R142): the bytes go to the offsets from 0 on. A program longer than the memory fails with
`OutOfBounds` (`none`) and writes nothing. -/
def State.load (s : State) (p : List Byte) : Option State :=
  if p.length > s.mem.size then none
  else (s.mem.putBytes 0 p).map fun m => { s with mem := m }

/-- A running engine with `bytes` where its next instruction is fetched: at `ip`, or at offset 0 with `ip`
there when they would not all be fetchable at `ip` (R18); the memory is made long enough to hold them. This
stands for the load that brings a program into the machine (log entry 5). -/
def State.placeBytes (s : State) (bytes : List Byte) : State :=
  let a := if (s.reg .ip).toNat + bytes.length ≤ Config.maxAddr then (s.reg .ip).toNat else 0
  let m : Memory := { s.mem with size := max s.mem.size (a + bytes.length) }
  { mem := (m.putBytes a bytes).getD m, regs := s.regs.set .ip (BitVec.ofNat 16 a), run := .running }

end Sys2Proof.Machine
end

