-- ==== Sys2Proof/Machine/Flags.lean ====
section
/-! DEFINITION. The hardware has no flags, condition codes or predicates (R21), so there is no flag
computation; the one arithmetic operation stands here. -/

namespace Sys2Proof.Machine

/-- The sum of two unsigned 16-bit values modulo 2^16: a carry out of bit 15 is lost, sets no flag and never
halts (R106, R107). -/
def addWrap (a b : Word) : Word := a + b

end Sys2Proof.Machine
end

