-- ==== Sys2Proof/Machine/Operands.lean ====
section
/-! DEFINITION. The operand forms: a 16-bit literal from the instruction stream, and a register named by an id
byte or implied by the opcode (R105). Each format fetches its operands in encoded order (R56, R86). -/

namespace Sys2Proof.Machine

/-- Format L (R59): a 16-bit literal, taken unchanged (R62). -/
def fetchFormatL (s : State) : Res Word := fetchU16 s

/-- Format LR (R60): a 16-bit literal, then a register id. -/
def fetchFormatLR (s : State) : Res (Word × Byte) :=
  (fetchU16 s).bind fun lit s => (fetchU8 s).bind fun rd s => .ok (lit, rd) s

/-- Format RR (R61): two register ids, neither checked before both are fetched (R86, R124). -/
def fetchFormatRR (s : State) : Res (Byte × Byte) :=
  (fetchU8 s).bind fun ra s => (fetchU8 s).bind fun rb s => .ok (ra, rb) s

/-- The operand fetches of an opcode, giving the instruction (R64, R86). -/
def fetchOperands (op : Opcode) (s : State) : Res Instr :=
  match op with
  | .movLitReg => (fetchFormatLR s).bind fun o s => .ok (.movLitReg o.1 o.2) s
  | .movLitR1 => (fetchFormatL s).bind fun lit s => .ok (.movLitR1 lit) s
  | .movLitR2 => (fetchFormatL s).bind fun lit s => .ok (.movLitR2 lit) s
  | .addRegReg => (fetchFormatRR s).bind fun o s => .ok (.addRegReg o.1 o.2) s
  | .endExec => .ok .endExec s

/-- The opcode fetch, the decode of the opcode byte and the operand fetches of one step (R84, R86). An
unassigned byte halts before any operand is fetched (R110). -/
def fetchInstr (m : OpcodeMap) (s : State) : Res Instr :=
  (fetchU8 s).bind fun b s =>
    match m.opcodeOf b with
    | none => .halt .unexpectedInstruction s
    | some op => fetchOperands op s

end Sys2Proof.Machine
end

