-- ==== Sys2Proof/Machine/Arithmetic.lean ====
section
/-! DEFINITION. The arithmetic family: ADD_REG_REG, the hardware's only arithmetic instruction (R107). -/

namespace Sys2Proof.Machine

/-- ADD_REG_REG (R106): both sources are read, `ra` first, before `acc` is written, so an operand id of 1
reads the old `acc` and an id of 0 reads the offset after the instruction (R87). -/
def execAddRegReg (ra rb : Byte) (s : State) : Host.Outcome State Fault Refusal :=
  ((readReg ra s).bind fun va s =>
    (readReg rb s).bind fun vb s =>
      .ok () (s.setReg .acc (addWrap va vb))).outcome

end Sys2Proof.Machine
end

