-- ==== Sys2Proof/Machine/Control.lean ====
section
/-! DEFINITION. The control family: END, the only instruction with a system effect (R115). The hardware has no
branch, jump, call or return opcode (R111); a jump is MOV_LIT_REG with register id 0 (R112). -/

namespace Sys2Proof.Machine

/-- END (R108): the run stops with the success reason, and no register is written. -/
def execEnd (s : State) : Host.Outcome State Fault Refusal :=
  .next (haltEntry .endOfExecution s)

end Sys2Proof.Machine
end

