-- ==== Sys2Proof/Machine/DataTransfer.lean ====
section
/-! DEFINITION. The data transfer family: MOV_LIT_REG, MOV_LIT_R1, MOV_LIT_R2. A meaning runs after the
fetches of its instruction, so `ip` is already past it (R86, R87). -/

namespace Sys2Proof.Machine

/-- MOV_LIT_REG (R100): with id 0 it is the absolute jump of R112; with an id of 10 or more it halts with
`BadMemoryAccess` and writes no register. -/
def execMovLitReg (lit : Word) (rd : Byte) (s : State) : Host.Outcome State Fault Refusal :=
  (writeReg rd lit s).outcome

/-- MOV_LIT_R1 (R102): the destination is implied, so the write cannot fail. -/
def execMovLitR1 (lit : Word) (s : State) : Host.Outcome State Fault Refusal :=
  .next (s.setReg .r1 lit)

/-- MOV_LIT_R2 (R104). -/
def execMovLitR2 (lit : Word) (s : State) : Host.Outcome State Fault Refusal :=
  .next (s.setReg .r2 lit)

end Sys2Proof.Machine
end

