-- ==== Sys2Proof/Machine/Dispatch.lean ====
section
/-! DEFINITION. Dispatch: one arm per instruction (R84). -/

namespace Sys2Proof.Machine

def exec (i : Instr) (s : State) : Host.Outcome State Fault Refusal :=
  match i with
  | .movLitReg lit rd => Sys2Proof.Machine.execMovLitReg lit rd s
  | .movLitR1 lit => Sys2Proof.Machine.execMovLitR1 lit s
  | .movLitR2 lit => Sys2Proof.Machine.execMovLitR2 lit s
  | .addRegReg ra rb => Sys2Proof.Machine.execAddRegReg ra rb s
  | .endExec => Sys2Proof.Machine.execEnd s

end Sys2Proof.Machine
end

