-- ==== Sys2Proof/Machine/Engine.lean ====
section
/-! DEFINITION. The engine under any opcode assignment: one step as a transition, a step as the host calls it,
and the run loop under fuel. -/

namespace Sys2Proof.Machine

/-- One step (R84): the fetches, then the instruction's effect. A halt on the way is a next state in which
`run` is `halted` (R120). A halted engine has no further transition (R90, log entry 2). -/
def stepWith (m : OpcodeMap) (s : State) : Host.Outcome State Fault Refusal :=
  match s.run with
  | .halted r => .fault (.engineHalted r)
  | .running =>
    match fetchInstr m s with
    | .halt r s' => .next (haltEntry r s')
    | .ok i s' => exec i s'

/-- `k` transitions one after another, stopping where one has no next state. -/
def stepsWith (m : OpcodeMap) : Nat → State → Host.Outcome State Fault Refusal
  | 0, s => .next s
  | k + 1, s =>
    match stepWith m s with
    | .next s' => stepsWith m k s'
    | .fault r => .fault r
    | .refused r => .refused r

/-- The status a call of `Step` returns (R78). -/
inductive StepStatus where
  | goesOn
  | halted
deriving DecidableEq, Repr

/-- `Continue` if the engine is still running, and `Halted` otherwise (R78). -/
def statusOf (s : State) : StepStatus :=
  match s.run with
  | .running => .goesOn
  | .halted _ => .halted

/-- A call of `Step` by the host (R78, R84): on a halted engine it returns `Halted` and changes no state
(R90). -/
def hostStep (m : OpcodeMap) (s : State) : State × StepStatus :=
  match stepWith m s with
  | .next s' => (s', statusOf s')
  | .fault _ => (s, .halted)
  | .refused _ => (s, .halted)

/-- How the run loop ends under fuel: running out of fuel is not a halt (R92, D12). -/
inductive RunEnd where
  | halted (s : State)
  | outOfFuel (s : State)
deriving DecidableEq, Repr

/-- The run loop `while Step() = Continue: skip` (R79), with at most `fuel` calls of `Step` (R92). -/
def runLoop (m : OpcodeMap) : Nat → State → RunEnd
  | 0, s => .outOfFuel s
  | fuel + 1, s =>
    match hostStep m s with
    | (s', .halted) => .halted s'
    | (s', .goesOn) => runLoop m fuel s'

end Sys2Proof.Machine
end

