-- ==== Sys2Proof/Machine/Step.lean ====
section
/-! DEFINITION. The machine's step under the default opcode assignment (R7, R64), and the placing of one table
word where it is fetched. -/

namespace Sys2Proof.Machine

/-- One step of the machine (R84). -/
def step (s : State) : Host.Outcome State Fault Refusal := stepWith opcDefault s

/-- `s` with the instruction of a table word where `step` fetches its next instruction. -/
def State.withFetchWord (s : State) (nbits w : Nat) : State := s.placeBytes (tableBytes nbits w)

end Sys2Proof.Machine
end

