-- ==== Sys2Proof/Machine/HostCalls.lean ====
section
/-! DEFINITION. The host interface (R146): what the outside world can do to one engine, and when. The host has
no other action: it writes no register and, after the first step, no memory (R144, D16). -/

namespace Sys2Proof.Machine

/-- Where the host is with an engine. It belongs to the host's protocol, not to the machine's state (R13). -/
inductive Phase where
  /-- Before the first step: the host may load (R144). -/
  | loading
  /-- The last load failed: the host must not go on to run (R142, D8). -/
  | loadFailed
  /-- The first step has been called. -/
  | started
deriving DecidableEq, Repr

/-- One engine in the hands of its host. -/
structure Session where
  engine : State
  phase : Phase
deriving DecidableEq, Repr

/-- The host's operations on a constructed engine (R146). `run` carries the executor's fuel (R92). -/
inductive HostCall where
  | load (p : List Byte)
  | step
  | run (fuel : Nat)
  | status
  | get (name : String)
  | dump
  | readMem (offset count : Nat)
deriving DecidableEq, Repr

/-- What an operation gives back (R146). -/
inductive HostReply where
  /-- `()` of a load. -/
  | done
  /-- `OutOfBounds`: a load longer than the memory, or a read of a byte that does not exist (R123). -/
  | outOfBounds
  | stepped (status : StepStatus)
  /-- `run` returned, because the engine halted. -/
  | returned
  /-- The executor stopped before a halt; the hardware's run goes on (R92). -/
  | outOfFuel
  | status (run : RunState)
  | value (v : Word)
  /-- The ten registers; the text format of the dump is no part of the contract (R135, I12). -/
  | registers (values : List (RegId × Word))
  | bytes (bs : List Byte)
deriving DecidableEq, Repr

/-- `new(N)` (R141, R146). -/
def Session.new (n : Nat) : Session := { engine := State.construct n, phase := .loading }

/-- `load(p)` (R142), only before the first step (R144). A load that fails leaves the engine as it was; a later
one that succeeds makes the engine launchable again (log entry 3). -/
def hostLoad (p : List Byte) (h : Session) : Host.Outcome (HostReply × Session) Fault Refusal :=
  match h.phase with
  | .started => .refused .loadAfterFirstStep
  | .loading | .loadFailed =>
    match h.engine.load p with
    | none => .next (.outOfBounds, { h with phase := .loadFailed })
    | some s => .next (.done, { engine := s, phase := .loading })

/-- `step()` (R84, R146). -/
def hostStepCall (m : OpcodeMap) (h : Session) : Host.Outcome (HostReply × Session) Fault Refusal :=
  match h.phase with
  | .loadFailed => .refused .launchAfterFailedLoad
  | .loading | .started =>
    .next (.stepped (hostStep m h.engine).2, { engine := (hostStep m h.engine).1, phase := .started })

/-- `run()` (R79, R146). -/
def hostRunCall (m : OpcodeMap) (fuel : Nat) (h : Session) : Host.Outcome (HostReply × Session) Fault Refusal :=
  match h.phase with
  | .loadFailed => .refused .launchAfterFailedLoad
  | .loading | .started =>
    match runLoop m fuel h.engine with
    | .halted s => .next (.returned, { engine := s, phase := .started })
    | .outOfFuel s => .next (.outOfFuel, { engine := s, phase := .started })

/-- `get(name)` (R25, R146). -/
def hostGet (name : String) (h : Session) : Host.Outcome (HostReply × Session) Fault Refusal :=
  match RegId.ofName? name with
  | none => .refused (.unknownRegisterName name)
  | some r => .next (.value (h.engine.reg r), h)

/-- Read bytes of the execution Memory (R146). -/
def hostReadMem (offset count : Nat) (h : Session) : Host.Outcome (HostReply × Session) Fault Refusal :=
  match h.engine.mem.readBytes offset count with
  | none => .next (.outOfBounds, h)
  | some bs => .next (.bytes bs, h)

/-- One operation of the host (R146). -/
def hostCall (m : OpcodeMap) (c : HostCall) (h : Session) : Host.Outcome (HostReply × Session) Fault Refusal :=
  match c with
  | .load p => hostLoad p h
  | .step => hostStepCall m h
  | .run fuel => hostRunCall m fuel h
  | .status => .next (.status h.engine.run, h)
  | .get name => hostGet name h
  | .dump => .next (.registers (RegId.all.map fun r => (r, h.engine.reg r)), h)
  | .readMem offset count => hostReadMem offset count h

end Sys2Proof.Machine
end

