-- ==== Sys2Proof/Safety.lean ====
section
/-! DEFINITION. The terms claims are stated in: the bytes an engine can fetch, an instruction standing at `ip`,
the register an instruction writes, how a run ends, and the invariant every step keeps. -/

namespace Sys2Proof

/-! ## What an instruction writes -/

/-- The register an instruction writes besides the `ip` its fetches advance (R16). -/
def Instr.dest : Instr → Option RegId
  | .movLitReg _ rd => RegId.ofByte? rd
  | .movLitR1 _ => some .r1
  | .movLitR2 _ => some .r2
  | .addRegReg _ _ => some .acc
  | .endExec => none

end Sys2Proof

namespace Sys2Proof.Machine

/-! ## What can be fetched -/

/-- The offsets that can be fetched lie below this: inside the memory (R47), and so that `ip` can step past
the byte (R18, R20). -/
def Memory.fetchEnd (m : Memory) : Nat := min m.size Config.maxAddr

/-- The bytes the engine can fetch one after another from offset `a`. -/
def Memory.fetchable (m : Memory) (a : Nat) : List Byte :=
  (List.range (m.fetchEnd - a)).map fun k => readCells m.cells (a + k)

/-- Instruction `i` stands at `ip`: its bytes are there (R56), and all of them can be fetched (R18, R20). -/
def InstrAt (m : OpcodeMap) (i : Instr) (s : State) : Prop :=
  s.mem.readBytes (s.reg .ip).toNat i.length = some (encode m i) ∧
    (s.reg .ip).toNat + i.length ≤ Config.maxAddr

/-- The state after the fetches of an instruction of `n` bytes (R19, R81). -/
def State.advance (s : State) (n : Nat) : State := s.setReg .ip (s.reg .ip + BitVec.ofNat 16 n)

/-! ## Halts -/

/-- How many bytes of an instruction cut short are fetched before the fetch that fails (R121): an operand
fetch that fails moves `ip` by nothing, so a literal cut in the middle counts none of its bytes. -/
def fetchedBeforeCut (m : OpcodeMap) : List Byte → Nat
  | [] => 0
  | b :: rest =>
    match m.opcodeOf b with
    | some .movLitReg => if rest.length < 2 then 1 else 3
    | some .movLitR1 => 1
    | some .movLitR2 => 1
    | some .addRegReg => if rest.length < 1 then 1 else 2
    | some .endExec => 1
    | none => 1

/-- The step of an instruction at offset `a` halts with `reason` and leaves `ip` at `p` (R119, R121). -/
def HaltsFrom (m : OpcodeMap) (mem : Memory) (a : Nat) (reason : HaltReason) (p : Nat) : Prop :=
  match reason with
  | .endOfExecution => ∃ rest, decode m (mem.fetchable a) = .ok (.endExec, rest) ∧ p = a + 1
  | .unexpectedInstruction => ∃ b, decode m (mem.fetchable a) = .error (.unassigned b) ∧ p = a + 1
  | .badMemoryAccess =>
    (decode m (mem.fetchable a) = .error .truncated ∧ p = a + fetchedBeforeCut m (mem.fetchable a)) ∨
      ∃ i rest, decode m (mem.fetchable a) = .ok (i, rest) ∧ i.wf = false ∧ p = a + i.length

/-- A halted engine's memory and `ip` show a reason for the halt it records. -/
def State.HaltExplained (m : OpcodeMap) (s : State) : Prop :=
  match s.run with
  | .running => True
  | .halted reason => ∃ a, HaltsFrom m s.mem a reason (s.reg .ip).toNat

/-! ## One step -/

/-- The step halts with `reason`, leaves `ip` at `p`, and changes nothing else (R89, R120). -/
def StepHalts (m : OpcodeMap) (s : State) (reason : HaltReason) (p : Nat) : Prop :=
  ∃ t, stepWith m s = .next t ∧ t.run = .halted reason ∧ (t.reg .ip).toNat = p ∧
    (∀ q, q ≠ .ip → t.reg q = s.reg q) ∧ t.mem = s.mem

/-- The step goes on with `v` in register `r` and, unless `r` is `ip`, with `ip` at `p`; it changes nothing
else (R16, R19). -/
def StepWrites (m : OpcodeMap) (s : State) (r : RegId) (v : Word) (p : Nat) : Prop :=
  ∃ t, stepWith m s = .next t ∧ t.run = .running ∧ t.reg r = v ∧ (r ≠ .ip → (t.reg .ip).toNat = p) ∧
    (∀ q, q ≠ r → q ≠ .ip → t.reg q = s.reg q) ∧ t.mem = s.mem

/-- The opcode byte at `ip` is `b`, and its fetch succeeds (R82). -/
def OpcodeAt (b : Byte) (s : State) : Prop :=
  s.mem.getU8 (s.reg .ip).toNat = some b ∧ (s.reg .ip).toNat < 0xFFFF

/-! ## Runs -/

/-- A run from `s` ends in `t` with `reason` (R93). -/
def RunEndsWith (m : OpcodeMap) (s : State) (reason : HaltReason) (t : State) : Prop :=
  s.run = .running ∧ ∃ k, stepsWith m k s = .next t ∧ t.run = .halted reason

/-- A run ends well exactly when its reason is `EndOfExecution` (R93, R130). -/
def RunEndsWell (m : OpcodeMap) (s t : State) : Prop := RunEndsWith m s .endOfExecution t

/-- The run from `s` never ends (R92). -/
def RunsForever (m : OpcodeMap) (s : State) : Prop :=
  ∀ k, ∃ t, stepsWith m k s = .next t ∧ t.run = .running

/-- The invariant of the engine: the memory is in its canonical form, and a halt is explained by the bytes at
`ip`. -/
def State.Inv (m : OpcodeMap) (s : State) : Prop := s.mem.wf = true ∧ s.HaltExplained m

/-- Two states that agree on everything but the registers other than `ip` (R113). -/
def SameControl (s t : State) : Prop := s.mem = t.mem ∧ s.reg .ip = t.reg .ip ∧ s.run = t.run

end Sys2Proof.Machine
end

