-- ==== Sys2Proof/Certificates/Slice0/Obligations.lean ====
section
/-! DEFINITION. The statements for the provers. `m` is any opcode assignment `OPC` (R7) and `N` the memory size
`s.mem.size`, so a statement holds of every engine a host may construct, unless it names the default
assignment. -/

open Sys2Proof Sys2Proof.Machine

/-! ## Reset and load -/

/-- R32, R33: at construction every register is 0, the register bank's bytes among them, and the engine is
running, for every memory size. -/
def Obligations.NewEngineRegistersZeroAndRunning : Prop :=
  ∀ n, (∀ r, (State.construct n).reg r = 0) ∧ (State.construct n).run = .running ∧
    (State.construct n).regs.bank.size = 20 ∧ ∀ o, o < 20 → (State.construct n).regs.bank.getU8 o = some 0

/-- The invariant of the engine holds at reset, for every memory size and every opcode assignment, and of the
closed reset state, whose memory size 0x10000 is the model's choice (log entry 1). -/
def Obligations.ResetStateHasInvariant : Prop :=
  ∀ m, (∀ n, (State.construct n).Inv m) ∧ State.reset.Inv m ∧ State.reset = State.construct 0x10000

/-- R31: at construction every byte is 0, and the load then overwrites a prefix. So one load of `p` leaves `p`
followed by zeros, and a second load overwrites its own prefix and leaves the rest of the first (R143, which the
spec marks as derived). -/
def Obligations.LoadsOverwritePrefixes : Prop :=
  ∀ n (p q : List Byte), p.length ≤ n → q.length ≤ n →
    (∀ o, o < n → (State.construct n).mem.getU8 o = some 0) ∧
    ∃ s t, (State.construct n).load p = some s ∧ s.load q = some t ∧
      (∀ o, o < n → s.mem.getU8 o = some (p.getD o 0)) ∧
      ∀ o, o < n → t.mem.getU8 o = some (if o < q.length then q.getD o 0 else p.getD o 0)

/-- R142: a load in any engine writes its bytes from offset 0 on and changes nothing else; one longer than the
memory fails, and nothing is written. -/
def Obligations.LoadWritesProgramOrFails : Prop :=
  ∀ (s : State) (p : List Byte), s.mem.wf = true →
    (s.mem.size < p.length → s.load p = none) ∧
    (p.length ≤ s.mem.size → ∃ t, s.load p = some t ∧ t.mem.size = s.mem.size ∧ t.regs = s.regs ∧ t.run = s.run ∧
      ∀ o, t.mem.getU8 o = if o < p.length then p[o]? else s.mem.getU8 o)

/-- Loading the same bytes a second time changes nothing (canonical memory: equal contents are equal data). -/
def Obligations.LoadTwiceIsLoadOnce : Prop :=
  ∀ (s t : State) (p : List Byte), s.mem.wf = true → s.load p = some t → t.load p = some t

/-! ## Memory -/

/-- R55: byte accesses succeed exactly below `N`, 16-bit accesses exactly when the second byte is below `N`. -/
def Obligations.MemoryAccessBounds : Prop :=
  ∀ (m : Memory) (o : Nat) (b : Byte) (v : Word),
    (o < m.size → (m.getU8 o).isSome ∧ (m.setU8 o b).isSome) ∧
    (m.size ≤ o → m.getU8 o = none ∧ m.setU8 o b = none) ∧
    (o + 1 < m.size → (m.getU16 o).isSome ∧ (m.setU16 o v).isSome) ∧
    (m.size ≤ o + 1 → m.getU16 o = none ∧ m.setU16 o v = none)

/-- R41: after `set_u16(o, v)` the byte at `o` is `v[15:8]`, the byte at `o + 1` is `v[7:0]`, the 16-bit read
gives `v` and every other byte is as before; and a 16-bit read is its two bytes, the first the high one. -/
def Obligations.WordAccessIsTwoBigEndianBytes : Prop :=
  ∀ (m : Memory) (o : Nat) (v : Word), m.wf = true → o + 1 < m.size →
    (∃ m', m.setU16 o v = some m' ∧ m'.getU8 o = some (BitVec.ofNat 8 (v.toNat / 256)) ∧
      m'.getU8 (o + 1) = some (BitVec.ofNat 8 (v.toNat % 256)) ∧ m'.getU16 o = some v ∧
      ∀ p, p ≠ o → p ≠ o + 1 → m'.getU8 p = m.getU8 p) ∧
    ∃ w hi lo, m.getU16 o = some w ∧ m.getU8 o = some hi ∧ m.getU8 (o + 1) = some lo ∧
      w.toNat = hi.toNat * 256 + lo.toNat

/-- The canonical form makes equal memories equal data: two memories of one size whose every byte reads the
same are the same. -/
def Obligations.CanonicalMemoriesWithEqualBytesAreEqual : Prop :=
  ∀ m m' : Memory, m.wf = true → m'.wf = true → m.size = m'.size → (∀ o, m.getU8 o = m'.getU8 o) → m = m'

/-! ## Registers -/

/-- R14: the ten register ids are the positions of the ten names in the canonical name table, and a byte of 10
or more names no register. -/
def Obligations.RegisterIdsArePositionsInNameTable : Prop :=
  RegId.all.map RegId.name = ["ip", "acc", "r1", "r2", "r3", "r4", "r5", "r6", "r7", "r8"] ∧
    (∀ r : RegId, RegId.all[r.toNat]? = some r ∧ RegId.ofByte? r.toByte = some r ∧ r.toByte.toNat = r.toNat ∧
      RegId.ofName? r.name = some r) ∧
    ∀ id : Byte, RegId.ofByte? id = none ↔ 10 ≤ id.toNat

/-- R26: for every register name and value, `set` then `get` returns the value, and no other register
changes. -/
def Obligations.SetThenGetRegisterByName : Prop :=
  ∀ (f : RegFile) (v : Word) (name other : String) (r q : RegId),
    RegId.ofName? name = some r → RegId.ofName? other = some q →
    (f.set r v).get r = v ∧ (name ≠ other → (f.set r v).get q = f.get q)

/-- R24: the register bank is a Memory of 20 bytes in which register id `i` has the bytes `2i` (high) and
`2i + 1` (low); reading or writing a register by id is the 16-bit access there. An id of 10 or more lies out of
the bank's bounds, which is where the engine halts (R88). -/
def Obligations.RegisterBankIsTheRegisterFile : Prop :=
  ∀ f : RegFile, f.bank.size = 20 ∧ f.bank.wf = true ∧
    (∀ (r : RegId) (v : Word), f.bank.getU16 (2 * r.toNat) = some (f.get r) ∧
      f.bank.getU8 (2 * r.toNat) = some (hiByte (f.get r)) ∧
      f.bank.getU8 (2 * r.toNat + 1) = some (loByte (f.get r)) ∧
      f.bank.setU16 (2 * r.toNat) v = some (f.set r v).bank) ∧
    ∀ id : Byte, 10 ≤ id.toNat → f.bank.getU16 (2 * id.toNat) = none

/-! ## Encoding -/

/-- R64, R65 and R66 for the default assignment: it maps the five opcodes to five distinct bytes, a byte is
unassigned exactly when it is none of these five, and 0x00 is unassigned. -/
def Obligations.DefaultOpcodesAreDistinct : Prop :=
  opcDefault.wf = true ∧
    [Opcode.movLitReg, .movLitR1, .movLitR2, .addRegReg, .endExec].map opcDefault.byteOf =
      [0x10, 0x11, 0x12, 0x14, 0xFF] ∧
    opcDefault.opcodeOf 0x00 = none ∧
    ∀ b : Byte, opcDefault.opcodeOf b = none ↔ b ∉ [0x10, 0x11, 0x12, 0x14, 0xFF]

/-- Words written out from the formats of R58 to R61 decode to the instructions they stand for. -/
def Obligations.SampleWordsDecode : Prop :=
  decode opcDefault [0b00010000, 0x12, 0x34, 0x04] = .ok (.movLitReg 0x1234 4, []) ∧
    decode opcDefault [0b00010001, 0xBE, 0xEF] = .ok (.movLitR1 0xBEEF, []) ∧
    decode opcDefault [0b00010010, 0x00, 0x07] = .ok (.movLitR2 0x0007, []) ∧
    decode opcDefault [0b00010100, 0x02, 0x03] = .ok (.addRegReg 2 3, []) ∧
    decode opcDefault [0b11111111, 0x13] = .ok (.endExec, [0x13]) ∧
    decode opcDefault [0x13] = .error (.unassigned 0x13) ∧
    decode opcDefault [0x10, 0x12, 0x34] = .error .truncated

/-- Under every injective opcode assignment, decoding the encoding of an instruction, whatever bytes follow,
gives that instruction and those bytes back: every literal, and every register-id byte from 0 to 255. -/
def Obligations.DecodeEncodeGivesInstructionBack : Prop :=
  ∀ m : OpcodeMap, m.wf = true → ∀ (i : Instr) (rest : List Byte), decode m (encode m i ++ rest) = .ok (i, rest)

/-- The other direction: bytes that decode are the encoding of what they decode to, followed by the bytes given
back. Under one assignment an instruction has one encoding. -/
def Obligations.DecodedBytesAreTheEncoding : Prop :=
  ∀ (m : OpcodeMap) (bs : List Byte) (i : Instr) (rest : List Byte),
    decode m bs = .ok (i, rest) → bs = encode m i ++ rest

/-- R57: the length of an instruction, 1, 3 or 4 bytes, is a function of its opcode byte alone, by the table of
R57. A decoder that has the opcode byte and that many bytes gives an instruction of that length. -/
def Obligations.OpcodeByteFixesLength : Prop :=
  ∀ (m : OpcodeMap) (b : Byte) (rest : List Byte),
    (∀ op, m.opcodeOf b = some op →
      (op.length = match op with | .movLitReg => 4 | .movLitR1 => 3 | .movLitR2 => 3 | .addRegReg => 3 | .endExec => 1) ∧
      (op.length ≤ rest.length + 1 →
        ∃ i, decode m (b :: rest) = .ok (i, rest.drop (op.length - 1)) ∧ i.opcode = op ∧
          (encode m i).length = op.length) ∧
      (rest.length + 1 < op.length → decode m (b :: rest) = .error .truncated)) ∧
    (m.opcodeOf b = none → decode m (b :: rest) = .error (.unassigned b))

/-! ## Fetch -/

/-- R82: `FetchU8` reads the byte at `ip` and adds 1 to `ip`; out of bounds, or at 0xFFFF, it halts with
`BadMemoryAccess` and `ip` is unchanged. -/
def Obligations.FetchU8ReadsByteAndAdvances : Prop :=
  ∀ s : State,
    (s.mem.size ≤ (s.reg .ip).toNat → fetchU8 s = .halt .badMemoryAccess s) ∧
    ((s.reg .ip).toNat = 0xFFFF → fetchU8 s = .halt .badMemoryAccess s) ∧
    ((s.reg .ip).toNat < s.mem.size → (s.reg .ip).toNat ≠ 0xFFFF →
      ∃ b t, s.mem.getU8 (s.reg .ip).toNat = some b ∧ fetchU8 s = .ok b t ∧
        (t.reg .ip).toNat = (s.reg .ip).toNat + 1 ∧ (∀ q, q ≠ .ip → t.reg q = s.reg q) ∧
        t.mem = s.mem ∧ t.run = s.run)

/-- R83: `FetchU16` reads the big-endian word at `ip` and adds 2 to `ip`; when either byte is out of bounds, or
`ip` would pass 0xFFFF, it halts with `BadMemoryAccess` and `ip` does not move at all. -/
def Obligations.FetchU16ReadsWordAndAdvances : Prop :=
  ∀ s : State,
    (s.mem.size ≤ (s.reg .ip).toNat + 1 → fetchU16 s = .halt .badMemoryAccess s) ∧
    (0xFFFE ≤ (s.reg .ip).toNat → fetchU16 s = .halt .badMemoryAccess s) ∧
    ((s.reg .ip).toNat + 1 < s.mem.size → (s.reg .ip).toNat < 0xFFFE →
      ∃ hi lo v t, s.mem.getU8 (s.reg .ip).toNat = some hi ∧ s.mem.getU8 ((s.reg .ip).toNat + 1) = some lo ∧
        v.toNat = hi.toNat * 256 + lo.toNat ∧ fetchU16 s = .ok v t ∧
        (t.reg .ip).toNat = (s.reg .ip).toNat + 2 ∧ (∀ q, q ≠ .ip → t.reg q = s.reg q) ∧
        t.mem = s.mem ∧ t.run = s.run)

/-- When the bytes at `ip` are an instruction and can be fetched, the machine's step is `exec` of it with `ip`
past it (R84, R86). -/
def Obligations.StepRunsInstructionAtIp : Prop :=
  ∀ (i : Instr) (s : State), s.run = .running → InstrAt opcDefault i s → step s = exec i (s.advance i.length)

/-- The step-by-step fetches of the engine and the decoder on the fetchable bytes are one: an instruction runs
with `ip` past it, an unassigned opcode halts one byte on, and an instruction cut short halts where its failing
fetch stood (R68, R84, R121). -/
def Obligations.EngineFetchRefinesDecoder : Prop :=
  ∀ (m : OpcodeMap) (s : State), s.run = .running →
    stepWith m s =
      match decode m (s.mem.fetchable (s.reg .ip).toNat) with
      | .ok (i, _) => exec i (s.advance i.length)
      | .error (.unassigned _) => .next (haltEntry .unexpectedInstruction (s.advance 1))
      | .error .truncated =>
        .next (haltEntry .badMemoryAccess (s.advance (fetchedBeforeCut m (s.mem.fetchable (s.reg .ip).toNat))))

/-! ## The effect of each instruction -/

/-- MOV_LIT_REG completes for every literal and every id that names a register: that register holds the
literal, and nothing else changes. With `ip` the literal is where the next step fetches. -/
def Obligations.MovLitRegWritesNamedRegister : Prop :=
  ∀ (lit : Word) (rd : Byte) (r : RegId) (s : State), RegId.ofByte? rd = some r →
    ∃ t, exec (.movLitReg lit rd) s = .next t ∧ t.reg r = lit ∧ (∀ q, q ≠ r → t.reg q = s.reg q) ∧
      t.mem = s.mem ∧ t.run = s.run

/-- MOV_LIT_R1 and MOV_LIT_R2 complete in every state: `r1` or `r2` holds the literal, and nothing else
changes. -/
def Obligations.MovLitR1AndR2WriteFixedRegister : Prop :=
  ∀ (lit : Word) (s : State),
    (∃ t, exec (.movLitR1 lit) s = .next t ∧ t.reg .r1 = lit ∧ (∀ q, q ≠ .r1 → t.reg q = s.reg q) ∧
      t.mem = s.mem ∧ t.run = s.run) ∧
    ∃ t, exec (.movLitR2 lit) s = .next t ∧ t.reg .r2 = lit ∧ (∀ q, q ≠ .r2 → t.reg q = s.reg q) ∧
      t.mem = s.mem ∧ t.run = s.run

/-- ADD_REG_REG completes for all ids that name registers: `acc` holds the sum of the old values modulo 2^16,
and nothing else changes. -/
def Obligations.AddRegRegWritesWrappedSum : Prop :=
  ∀ (ra rb : Byte) (p q : RegId) (s : State), RegId.ofByte? ra = some p → RegId.ofByte? rb = some q →
    ∃ t, exec (.addRegReg ra rb) s = .next t ∧
      (t.reg .acc).toNat = ((s.reg p).toNat + (s.reg q).toNat) % 2 ^ 16 ∧
      (∀ r, r ≠ .acc → t.reg r = s.reg r) ∧ t.mem = s.mem ∧ t.run = s.run

/-- END completes in every state by halting with `EndOfExecution`: no register and no byte of memory
changes. -/
def Obligations.EndHaltsSuccessfully : Prop :=
  ∀ s : State, ∃ t, exec .endExec s = .next t ∧ t.run = .halted .endOfExecution ∧ (∀ q, t.reg q = s.reg q) ∧
    t.mem = s.mem

/-- An id of 10 or more halts the instruction that uses it with `BadMemoryAccess`, with no register written
(R63, R88): the destination of MOV_LIT_REG, and either source of ADD_REG_REG. -/
def Obligations.InvalidRegisterIdHalts : Prop :=
  ∀ (lit : Word) (a b : Byte) (s : State),
    (10 ≤ a.toNat → ∃ t, exec (.movLitReg lit a) s = .next t ∧ t.run = .halted .badMemoryAccess ∧
      (∀ q, t.reg q = s.reg q) ∧ t.mem = s.mem) ∧
    (10 ≤ a.toNat ∨ 10 ≤ b.toNat → ∃ t, exec (.addRegReg a b) s = .next t ∧ t.run = .halted .badMemoryAccess ∧
      (∀ q, t.reg q = s.reg q) ∧ t.mem = s.mem)

/-- R16 and the frame of every instruction: `exec` always answers a next state; no byte of memory changes; only
the destination register may change, and it changes only if every id names a register; the engine keeps running
unless the instruction is END or names no register. -/
def Obligations.InstructionsWriteOnlyTheirDestination : Prop :=
  ∀ (i : Instr) (s : State), ∃ t, exec i s = .next t ∧ t.mem = s.mem ∧
    (∀ q, i.dest ≠ some q → t.reg q = s.reg q) ∧
    (i.wf = true → i ≠ .endExec → t.run = s.run) ∧
    (i.wf = false → t.run = .halted .badMemoryAccess ∧ ∀ q, t.reg q = s.reg q)

/-- Swapping the two ids of ADD_REG_REG gives the same state, halts included (R106). -/
def Obligations.AddRegRegCommutes : Prop :=
  ∀ (ra rb : Byte) (s : State), exec (.addRegReg ra rb) s = exec (.addRegReg rb ra) s

/-! ## Whole steps -/

/-- R100: the step of MOV_LIT_REG at `a`: the literal goes to the register `rd` names and `ip` to `a + 4`, or,
with `ip` named, `ip` to the literal; `rd` of 10 or more halts at `a + 4`; a literal that cannot be fetched
halts at `a + 1`, a register id that cannot be fetched at `a + 3`. (That an id of 10 or more and a fetch past
0xFFFF halt so, and that a failed fetch leaves `ip`, are the spec's own decisions D3, D4 and D5, which R100
states.) -/
def Obligations.StepOfMovLitReg : Prop :=
  ∀ (m : OpcodeMap) (s : State) (lit : Word) (rd : Byte) (a : Nat), m.wf = true → s.run = .running →
    (s.reg .ip).toNat = a →
    (InstrAt m (.movLitReg lit rd) s →
      (∀ r, RegId.ofByte? rd = some r → StepWrites m s r lit (a + 4)) ∧
      (10 ≤ rd.toNat → StepHalts m s .badMemoryAccess (a + 4))) ∧
    (OpcodeAt m.movLitReg s →
      (s.mem.size ≤ a + 2 ∨ 0xFFFE ≤ a + 1 → StepHalts m s .badMemoryAccess (a + 1)) ∧
      (a + 2 < s.mem.size → a + 1 < 0xFFFE → s.mem.size ≤ a + 3 ∨ a + 3 = 0xFFFF →
        StepHalts m s .badMemoryAccess (a + 3)))

/-- R102 and R104: the step of MOV_LIT_R1 or MOV_LIT_R2 at `a`: the literal goes to `r1` or `r2` and `ip` to
`a + 3`; a literal that cannot be fetched halts at `a + 1` (for a fetch past 0xFFFF and for `ip` the spec's
decisions D4 and D5, which both rules state). -/
def Obligations.StepOfMovLitR1AndR2 : Prop :=
  ∀ (m : OpcodeMap) (s : State) (lit : Word) (a : Nat), m.wf = true → s.run = .running → (s.reg .ip).toNat = a →
    (InstrAt m (.movLitR1 lit) s → StepWrites m s .r1 lit (a + 3)) ∧
    (InstrAt m (.movLitR2 lit) s → StepWrites m s .r2 lit (a + 3)) ∧
    (OpcodeAt m.movLitR1 s ∨ OpcodeAt m.movLitR2 s → s.mem.size ≤ a + 2 ∨ 0xFFFE ≤ a + 1 →
      StepHalts m s .badMemoryAccess (a + 1))

/-- R106: the step of ADD_REG_REG at `a`: `acc` holds the sum modulo 2^16 of what the two registers hold after
the fetches (an id of 0 reads `a + 3`, an id of 1 the old `acc`) and `ip` is `a + 3`; an id of 10 or more halts
at `a + 3`; an id that cannot be fetched halts at `a + 1` or `a + 2` (the spec's decisions D3, D4 and D5, which
R106 states). -/
def Obligations.StepOfAddRegReg : Prop :=
  ∀ (m : OpcodeMap) (s : State) (ra rb : Byte) (a : Nat), m.wf = true → s.run = .running → (s.reg .ip).toNat = a →
    (InstrAt m (.addRegReg ra rb) s →
      (∀ p q, RegId.ofByte? ra = some p → RegId.ofByte? rb = some q →
        StepWrites m s .acc
          (BitVec.ofNat 16 ((if p = .ip then a + 3 else (s.reg p).toNat) + (if q = .ip then a + 3 else (s.reg q).toNat)))
          (a + 3)) ∧
      (10 ≤ ra.toNat ∨ 10 ≤ rb.toNat → StepHalts m s .badMemoryAccess (a + 3))) ∧
    (OpcodeAt m.addRegReg s →
      (s.mem.size ≤ a + 1 ∨ a + 1 = 0xFFFF → StepHalts m s .badMemoryAccess (a + 1)) ∧
      (a + 1 < s.mem.size → a + 1 ≠ 0xFFFF → s.mem.size ≤ a + 2 ∨ a + 2 = 0xFFFF →
        StepHalts m s .badMemoryAccess (a + 2)))

/-- R108 and R110: END halts with `EndOfExecution`, any unassigned opcode byte with `UnexpectedInstruction`; each
leaves `ip` one byte on, whatever bytes follow or are missing, and every other register as it was. At 0xFFFF
neither can run: the opcode fetch halts with `BadMemoryAccess` (R82; the spec's decision D4). -/
def Obligations.StepOfEndAndOfUnassignedOpcode : Prop :=
  ∀ (m : OpcodeMap) (s : State) (b : Byte), m.wf = true → s.run = .running →
    (OpcodeAt b s →
      (b = m.endExec → StepHalts m s .endOfExecution ((s.reg .ip).toNat + 1)) ∧
      (m.opcodeOf b = none → StepHalts m s .unexpectedInstruction ((s.reg .ip).toNat + 1))) ∧
    ((s.reg .ip).toNat = 0xFFFF → StepHalts m s .badMemoryAccess 0xFFFF)

/-- An opcode that cannot be fetched, at an offset of `N` or more or at 0xFFFF, halts with `BadMemoryAccess` and
`ip` stays (R82, R121). -/
def Obligations.OpcodeFetchFailureHalts : Prop :=
  ∀ (m : OpcodeMap) (s : State), s.run = .running →
    s.mem.size ≤ (s.reg .ip).toNat ∨ (s.reg .ip).toNat = 0xFFFF →
    StepHalts m s .badMemoryAccess (s.reg .ip).toNat

/-- R109: past the last loaded byte a program has no implicit end: the next opcode fetch reads a byte the load
did not write, which is 0x00 and halts with `UnexpectedInstruction` under the default assignment, or finds no
byte and halts with `BadMemoryAccess`. (At 0xFFFF the fetch itself halts, R82.) -/
def Obligations.RunningOffTheProgramHalts : Prop :=
  ∀ (n : Nat) (p : List Byte) (l s : State), (State.construct n).load p = some l → s.mem = l.mem →
    s.run = .running → p.length ≤ (s.reg .ip).toNat →
    ((s.reg .ip).toNat < n → (s.reg .ip).toNat ≠ 0xFFFF →
      StepHalts opcDefault s .unexpectedInstruction ((s.reg .ip).toNat + 1)) ∧
    (n ≤ (s.reg .ip).toNat → StepHalts opcDefault s .badMemoryAccess (s.reg .ip).toNat)

/-- R112: MOV_LIT_REG with register id 0 jumps to its literal, unchecked and unaligned; a target that cannot be
fetched halts the next step with `ip` at the target; a jump to its own offset repeats forever. -/
def Obligations.MovLitRegToIpIsAJump : Prop :=
  ∀ (m : OpcodeMap) (s : State) (target : Word), m.wf = true → s.run = .running →
    InstrAt m (.movLitReg target 0) s →
    ∃ t, stepWith m s = .next t ∧ t.reg .ip = target ∧ t.run = .running ∧ (∀ q, q ≠ .ip → t.reg q = s.reg q) ∧
      t.mem = s.mem ∧
      (s.mem.size ≤ target.toNat ∨ target.toNat = 0xFFFF → StepHalts m t .badMemoryAccess target.toNat) ∧
      (target = s.reg .ip → t = s ∧ RunsForever m s)

/-- R87: an instruction that reads `ip` as a data operand reads the offset after itself, and one that writes `ip`
writes it after its fetches. -/
def Obligations.IpOperandIsOffsetAfterInstruction : Prop :=
  ∀ (m : OpcodeMap) (s : State), m.wf = true → s.run = .running →
    (InstrAt m (.addRegReg 0 0) s → StepWrites m s .acc (s.reg .ip + 3 + (s.reg .ip + 3)) ((s.reg .ip).toNat + 3)) ∧
    (∀ (rb : Byte) (q : RegId), RegId.ofByte? rb = some q → q ≠ .ip → InstrAt m (.addRegReg 0 rb) s →
      StepWrites m s .acc (s.reg .ip + 3 + s.reg q) ((s.reg .ip).toNat + 3)) ∧
    (∀ (ra : Byte) (p : RegId), RegId.ofByte? ra = some p → p ≠ .ip → InstrAt m (.addRegReg ra 0) s →
      StepWrites m s .acc (s.reg p + (s.reg .ip + 3)) ((s.reg .ip).toNat + 3)) ∧
    ∀ lit : Word, InstrAt m (.movLitReg lit 0) s → ∃ t, stepWith m s = .next t ∧ t.reg .ip = lit

/-- `ip` never wraps: a step moves it forward by at most four bytes, or the instruction is the jump, which puts
its literal there (R20, R113). -/
def Obligations.IpNeverWraps : Prop :=
  ∀ (m : OpcodeMap) (s t : State), stepWith m s = .next t →
    ((s.reg .ip).toNat ≤ (t.reg .ip).toNat ∧ (t.reg .ip).toNat ≤ (s.reg .ip).toNat + 4) ∨
    ∃ target rest, decode m (s.mem.fetchable (s.reg .ip).toNat) = .ok (.movLitReg target 0, rest) ∧
      t.reg .ip = target

/-! ## Halts -/

/-- R89 and R121: halts are precise. A step that halts leaves the memory and every register other than `ip` as
they were, and the reason and the `ip` it leaves are the ones the bytes at the old `ip` give. -/
def Obligations.HaltsArePrecise : Prop :=
  ∀ (m : OpcodeMap) (s t : State) (reason : HaltReason), stepWith m s = .next t → t.run = .halted reason →
    t.mem = s.mem ∧ (∀ q, q ≠ .ip → t.reg q = s.reg q) ∧
      HaltsFrom m s.mem (s.reg .ip).toNat reason (t.reg .ip).toNat

/-- R68: a step of a running engine ends in exactly one of the four ways: it completes an assigned instruction
whose ids all name registers, or it halts with one of the three reasons, each from the bytes that give it. -/
def Obligations.StepEndsInOneOfFourWays : Prop :=
  ∀ (m : OpcodeMap) (s : State), s.run = .running → ∃ t, stepWith m s = .next t ∧
    match t.run with
    | .running => ∃ i rest, decode m (s.mem.fetchable (s.reg .ip).toNat) = .ok (i, rest) ∧ i.wf = true ∧
        i ≠ .endExec ∧ exec i (s.advance i.length) = .next t
    | .halted reason => HaltsFrom m s.mem (s.reg .ip).toNat reason (t.reg .ip).toNat

/-- R90: a halted engine is final: it has no transition, and the host's step returns `Halted` and changes no
state. -/
def Obligations.HaltedEngineIsFinal : Prop :=
  ∀ (m : OpcodeMap) (s : State) (reason : HaltReason), s.run = .halted reason →
    stepWith m s = .fault (.engineHalted reason) ∧ hostStep m s = (s, .halted) ∧
      ∀ k, stepsWith m (k + 1) s = .fault (.engineHalted reason)

/-- R78: the status of a step is `Continue` exactly when the engine is still running after it, and the step the
host calls is the machine's transition. -/
def Obligations.StepStatusTellsWhetherRunning : Prop :=
  ∀ (m : OpcodeMap) (s : State),
    ((hostStep m s).2 = .goesOn ↔ (hostStep m s).1.run = .running) ∧
    (s.run = .running → stepWith m s = .next (hostStep m s).1)

/-- The engine's invariant: the memory stays in its canonical form, and whenever the engine is halted the bytes
of its memory and its `ip` explain the reason it records (R119, R121). Every step keeps it. -/
def Obligations.StepKeepsInvariant : Prop :=
  ∀ (m : OpcodeMap) (s t : State), s.Inv m → stepWith m s = .next t → t.Inv m

/-! ## Runs -/

/-- R46: during a run the execution Memory is constant. -/
def Obligations.MemoryIsConstantDuringRun : Prop :=
  ∀ (m : OpcodeMap) (k : Nat) (s t : State), stepsWith m k s = .next t → t.mem = s.mem

/-- R79, R92: the run loop under fuel returns the state of the first halt if that comes within the fuel, and is
otherwise out of fuel in a running engine, which is no halt. -/
def Obligations.RunLoopStopsAtFirstHalt : Prop :=
  ∀ (m : OpcodeMap) (fuel : Nat) (s t : State), s.run = .running →
    (runLoop m fuel s = .halted t ↔ ∃ k reason, k ≤ fuel ∧ stepsWith m k s = .next t ∧ t.run = .halted reason) ∧
    (runLoop m fuel s = .outOfFuel t ↔ stepsWith m fuel s = .next t ∧ t.run = .running)

/-- R93: a run has exactly one end, with one reason and one state, or it runs forever; never both. -/
def Obligations.RunEndsOnceOrRunsForever : Prop :=
  ∀ (m : OpcodeMap) (s : State), s.run = .running →
    ((∃ reason t, RunEndsWith m s reason t) ∨ RunsForever m s) ∧
    (∀ reason reason' t t', RunEndsWith m s reason t → RunEndsWith m s reason' t' → reason = reason' ∧ t = t') ∧
    ∀ reason t, RunEndsWith m s reason t → ¬ RunsForever m s

/-- R113: control flow does not depend on data. Two engines with the same memory, `ip` and engine state, whatever
their other registers hold, agree on these after any number of steps, halts and their reasons included. -/
def Obligations.ControlFlowIgnoresData : Prop :=
  ∀ (m : OpcodeMap) (k : Nat) (s t s' : State), SameControl s t → stepsWith m k s = .next s' →
    ∃ t', stepsWith m k t = .next t' ∧ SameControl s' t'

/-- R113: a run that has not halted after 0x10000 steps never halts. -/
def Obligations.NoHaltIn65536StepsMeansNever : Prop :=
  ∀ (m : OpcodeMap) (s t : State), stepsWith m 0x10000 s = .next t → t.run = .running → RunsForever m s

/-! ## The host -/

/-- R144: the host loads only before the first step: a load after it is refused, and after it no call of the host
changes the memory, nor, unless it steps or runs the engine, anything at all. -/
def Obligations.HostWritesOnlyBeforeFirstStep : Prop :=
  ∀ (m : OpcodeMap) (c : HostCall) (h : Session), h.phase = .started →
    (∀ p, hostCall m (.load p) h = .refused .loadAfterFirstStep) ∧
    ∀ reply h', hostCall m c h = .next (reply, h') →
      h'.phase = .started ∧ h'.engine.mem = h.engine.mem ∧ (c ≠ .step → (∀ fuel, c ≠ .run fuel) → h' = h)

/-- A load that fails leaves the engine as it was, and the host cannot go on to step or run it (R142). -/
def Obligations.FailedLoadBlocksLaunch : Prop :=
  ∀ (m : OpcodeMap) (p : List Byte) (h : Session), h.phase ≠ .started → h.engine.mem.size < p.length →
    ∃ h', hostCall m (.load p) h = .next (.outOfBounds, h') ∧ h'.engine = h.engine ∧
      hostCall m .step h' = .refused .launchAfterFailedLoad ∧
      ∀ fuel, hostCall m (.run fuel) h' = .refused .launchAfterFailedLoad

/-- `get` with a name of the table returns that register and changes nothing; with any other name the call is
refused (R25). -/
def Obligations.HostGetReadsNamedRegister : Prop :=
  ∀ (m : OpcodeMap) (h : Session) (name : String),
    (∀ r : RegId, name = r.name → hostCall m (.get name) h = .next (.value (h.engine.reg r), h)) ∧
    ((∀ r : RegId, name ≠ r.name) → hostCall m (.get name) h = .refused (.unknownRegisterName name))
end

