-- ==== Sys2Proof/Laws/Decode.lean ====
section
/-! SUPPORT. The small lemmas of byte order, of register ids and of opcode assignments. -/

namespace Sys2Proof

/-! ## Byte order -/

/-- The first byte is the high one (R39). -/
theorem toNat_joinBytes (hi lo : Byte) : (joinBytes hi lo).toNat = hi.toNat * 256 + lo.toNat := by
  show ((hi ++ lo : BitVec (8 + 8))).toNat = _
  rw [BitVec.toNat_append, ← Nat.shiftLeft_add_eq_or_of_lt lo.isLt, Nat.shiftLeft_eq]

theorem hiByte_eq (v : Word) : hiByte v = BitVec.ofNat 8 (v.toNat / 256) := by
  apply BitVec.eq_of_toNat_eq
  simp [hiByte, Nat.shiftRight_eq_div_pow]

theorem loByte_eq (v : Word) : loByte v = BitVec.ofNat 8 (v.toNat % 256) := by
  apply BitVec.eq_of_toNat_eq
  simp [loByte]

@[simp] theorem joinBytes_hi_lo (v : Word) : joinBytes (hiByte v) (loByte v) = v := by
  apply BitVec.eq_of_toNat_eq
  rw [toNat_joinBytes, hiByte_eq, loByte_eq, BitVec.toNat_ofNat, BitVec.toNat_ofNat]
  have := v.isLt
  omega

@[simp] theorem hiByte_joinBytes (hi lo : Byte) : hiByte (joinBytes hi lo) = hi := by
  apply BitVec.eq_of_toNat_eq
  rw [hiByte_eq, toNat_joinBytes, BitVec.toNat_ofNat]
  have := hi.isLt
  have := lo.isLt
  omega

@[simp] theorem loByte_joinBytes (hi lo : Byte) : loByte (joinBytes hi lo) = lo := by
  apply BitVec.eq_of_toNat_eq
  rw [loByte_eq, toNat_joinBytes, BitVec.toNat_ofNat]
  have := lo.isLt
  omega

/-! ## Register ids -/

theorem RegId.ofByte?_toByte (r : RegId) : RegId.ofByte? r.toByte = some r := by cases r <;> rfl

/-- An id byte names a register exactly when it is below ten (R63). -/
theorem RegId.ofByte?_isSome (id : Byte) : (RegId.ofByte? id).isSome = regIdOk id := by
  revert id
  decide

theorem regIdOk_eq_false {id : Byte} : regIdOk id = false ↔ 10 ≤ id.toNat := by
  rw [regIdOk, decide_eq_false_iff_not, Nat.not_lt]
  rfl

theorem RegId.ofByte?_none {id : Byte} : RegId.ofByte? id = none ↔ regIdOk id = false := by
  rw [← RegId.ofByte?_isSome]
  cases RegId.ofByte? id <;> simp

theorem RegId.ofByte?_some {id : Byte} : (∃ r, RegId.ofByte? id = some r) ↔ regIdOk id = true := by
  rw [← RegId.ofByte?_isSome, Option.isSome_iff_exists]

theorem RegId.ofName?_name (r : RegId) : RegId.ofName? r.name = some r := by cases r <;> decide

theorem RegId.name_of_ofName? {name : String} {r : RegId} (h : RegId.ofName? name = some r) : r.name = name := by
  simpa using List.find?_some h

/-! ## Opcodes -/

theorem OpcodeMap.wf_ne {m : OpcodeMap} (h : m.wf = true) :
    m.movLitReg ≠ m.movLitR1 ∧ m.movLitReg ≠ m.movLitR2 ∧ m.movLitReg ≠ m.addRegReg ∧ m.movLitReg ≠ m.endExec ∧
      m.movLitR1 ≠ m.movLitR2 ∧ m.movLitR1 ≠ m.addRegReg ∧ m.movLitR1 ≠ m.endExec ∧
      m.movLitR2 ≠ m.addRegReg ∧ m.movLitR2 ≠ m.endExec ∧ m.addRegReg ≠ m.endExec := by
  simpa [OpcodeMap.wf, OpcodeMap.bytes, and_assoc] using h

/-- Under an injective assignment the byte of an opcode dispatches to that opcode (R65, R85). -/
theorem OpcodeMap.opcodeOf_byteOf {m : OpcodeMap} (h : m.wf = true) (op : Opcode) :
    m.opcodeOf (m.byteOf op) = some op := by
  obtain ⟨h1, h2, h3, h4, h5, h6, h7, h8, h9, h10⟩ := OpcodeMap.wf_ne h
  cases op <;>
    simp [OpcodeMap.opcodeOf, OpcodeMap.byteOf, h1.symm, h2.symm, h3.symm, h4.symm, h5.symm, h6.symm, h7.symm,
      h8.symm, h9.symm, h10.symm]

/-- A byte dispatches to an opcode only if it is that opcode's byte. -/
theorem OpcodeMap.opcodeOf_some {m : OpcodeMap} {b : Byte} {op : Opcode} (h : m.opcodeOf b = some op) :
    b = m.byteOf op := by
  unfold OpcodeMap.opcodeOf at h
  repeat' split at h
  all_goals cases h
  all_goals assumption

/-! ## Lengths -/

/-- An instruction has at least one byte and at most four (R57). -/
theorem Instr.length_bounds (i : Instr) : 0 < i.length ∧ i.length ≤ maxInstrBytes := by
  cases i <;> simp [Instr.length, Instr.opcode, Opcode.length, maxInstrBytes]

end Sys2Proof
end

