-- ==== Sys2Proof/Laws/State.lean ====
section
/-! SUPPORT. The small lemmas of State and the Register File: one per field per update, and reads of registers
after writes. Later proofs cite these and unfold no record update. -/

namespace Sys2Proof.Machine

/-! ## The Register File -/

@[simp] theorem RegFile.get_set (f : RegFile) (r q : RegId) (v : Word) :
    (f.set r v).get q = if q = r then v else f.get q := by
  cases r <;> cases q <;> rfl

@[simp] theorem RegFile.get_zero (r : RegId) : RegFile.zero.get r = 0 := by cases r <;> rfl

/-- A Register File is its ten values. -/
theorem RegFile.ext_get {f g : RegFile} (h : ∀ r, f.get r = g.get r) : f = g := by
  obtain ⟨⟩ := f
  obtain ⟨⟩ := g
  have := h .ip; have := h .acc; have := h .r1; have := h .r2; have := h .r3
  have := h .r4; have := h .r5; have := h .r6; have := h .r7; have := h .r8
  simp_all [RegFile.get]

/-- A state is its memory, its ten registers and its engine state. -/
theorem State.ext_reg {s t : State} (hm : s.mem = t.mem) (hr : ∀ r, s.reg r = t.reg r) (hs : s.run = t.run) :
    s = t := by
  have : s.regs = t.regs := RegFile.ext_get hr
  cases s; cases t; simp_all

/-! ## Writing a register -/

@[simp] theorem State.setReg_mem (s : State) (r : RegId) (v : Word) : (s.setReg r v).mem = s.mem := rfl
@[simp] theorem State.setReg_run (s : State) (r : RegId) (v : Word) : (s.setReg r v).run = s.run := rfl
@[simp] theorem State.setReg_regs (s : State) (r : RegId) (v : Word) : (s.setReg r v).regs = s.regs.set r v := rfl

@[simp] theorem State.reg_setReg (s : State) (r q : RegId) (v : Word) :
    (s.setReg r v).reg q = if q = r then v else s.reg q := RegFile.get_set _ _ _ _

theorem State.setReg_setReg_same (s : State) (r : RegId) (v w : Word) : (s.setReg r v).setReg r w = s.setReg r w :=
  State.ext_reg rfl (fun q => by simp; split <;> rfl) rfl

/-! ## Halt entry -/

@[simp] theorem haltEntry_mem (r : HaltReason) (s : State) : (haltEntry r s).mem = s.mem := rfl
@[simp] theorem haltEntry_regs (r : HaltReason) (s : State) : (haltEntry r s).regs = s.regs := rfl
@[simp] theorem haltEntry_reg (r : HaltReason) (s : State) (q : RegId) : (haltEntry r s).reg q = s.reg q := rfl
@[simp] theorem haltEntry_run (r : HaltReason) (s : State) : (haltEntry r s).run = .halted r := rfl

/-! ## Moving past fetched bytes -/

@[simp] theorem State.advance_mem (s : State) (n : Nat) : (s.advance n).mem = s.mem := rfl
@[simp] theorem State.advance_run (s : State) (n : Nat) : (s.advance n).run = s.run := rfl

@[simp] theorem State.reg_advance (s : State) (n : Nat) (q : RegId) :
    (s.advance n).reg q = if q = .ip then s.reg .ip + BitVec.ofNat 16 n else s.reg q := by
  simp [State.advance]

theorem State.advance_advance (s : State) (n k : Nat) : (s.advance n).advance k = s.advance (n + k) :=
  State.ext_reg rfl (fun q => by simp; split <;> simp [BitVec.ofNat_add, BitVec.add_assoc]) rfl

@[simp] theorem State.advance_zero (s : State) : s.advance 0 = s :=
  State.ext_reg rfl (fun q => by simp; intro h; rw [h]) rfl

/-- The value of `ip` after an advance that does not pass 0xFFFF (R20). -/
theorem State.toNat_ip_advance (s : State) (n : Nat) (h : (s.reg .ip).toNat + n ≤ Config.maxAddr) :
    ((s.advance n).reg .ip).toNat = (s.reg .ip).toNat + n := by
  simp only [Config.maxAddr] at h
  simp only [State.reg_advance, if_true, BitVec.toNat_add, BitVec.toNat_ofNat]
  omega

/-! ## Construction -/

@[simp] theorem State.construct_mem (n : Nat) : (State.construct n).mem = Memory.new n := rfl
@[simp] theorem State.construct_regs (n : Nat) : (State.construct n).regs = RegFile.zero := rfl
@[simp] theorem State.construct_run (n : Nat) : (State.construct n).run = .running := rfl

end Sys2Proof.Machine
end

