-- ==== Sys2Proof/Laws/Memory.lean ====
section
/-! SUPPORT. The laws of memory: a read after a write to the same offset gives the byte written, a write leaves
every other offset alone, and every memory operation keeps the canonical form. -/

namespace Sys2Proof.Machine

/-! ## Cells -/

theorem cellsWf_cons {size lo k : Nat} {c : Byte} {cs : List Host.Cell} :
    cellsWf size lo ((k, c) :: cs) = true ↔ lo ≤ k ∧ k < size ∧ c ≠ unlistedByte ∧ cellsWf size (k + 1) cs = true := by
  simp [cellsWf, and_assoc]

/-- Below its lower bound a canonical list holds no cell. -/
theorem readCells_below {size : Nat} {cs : List Host.Cell} {lo o : Nat} (h : cellsWf size lo cs = true) (ho : o < lo) :
    readCells cs o = unlistedByte := by
  cases cs with
  | nil => rfl
  | cons x cs =>
    obtain ⟨k, c⟩ := x
    have hk := (cellsWf_cons.1 h).1
    simp [readCells, show o < k by omega]

theorem cellsWf_mono {size size' lo lo' : Nat} {cs : List Host.Cell} (h : cellsWf size lo cs = true) (hl : lo' ≤ lo)
    (hs : size ≤ size') : cellsWf size' lo' cs = true := by
  induction cs generalizing lo lo' with
  | nil => rfl
  | cons x cs ih =>
    obtain ⟨k, c⟩ := x
    obtain ⟨h1, h2, h3, h4⟩ := cellsWf_cons.1 h
    exact cellsWf_cons.2 ⟨by omega, by omega, h3, ih h4 le_rfl⟩

/-- A byte reads back as written, and every other offset reads as before. -/
theorem readCells_writeCells {size : Nat} {cs : List Host.Cell} {lo : Nat} (h : cellsWf size lo cs = true) (o : Nat)
    (b : Byte) (o' : Nat) : readCells (writeCells cs o b) o' = if o' = o then b else readCells cs o' := by
  induction cs generalizing lo with
  | nil =>
    by_cases hb : b = unlistedByte
    · simp [writeCells, readCells, hb]
    · by_cases ho : o' = o
      · simp [writeCells, readCells, hb, ho]
      · simp [writeCells, readCells, hb, ho]
  | cons x cs ih =>
    obtain ⟨k, c⟩ := x
    obtain ⟨-, -, -, h4⟩ := cellsWf_cons.1 h
    have hb4 : ∀ o, o < k + 1 → readCells cs o = unlistedByte := fun o ho => readCells_below h4 ho
    rcases Nat.lt_trichotomy o k with hok | hok | hok
    · by_cases hb : b = unlistedByte
      · by_cases ho : o' = o
        · simp [writeCells, readCells, hok, hb, ho]
        · simp [writeCells, hok, hb, ho]
      · rcases Nat.lt_trichotomy o' o with ho | ho | ho
        · simp [writeCells, readCells, hok, hb, ho, ho.ne, show o' < k by omega]
        · simp [writeCells, readCells, hok, hb, ho]
        · simp [writeCells, readCells, hok, hb, ho.ne', show ¬ o' < o by omega]
    · subst hok
      by_cases hb : b = unlistedByte
      · rcases Nat.lt_trichotomy o' o with ho | ho | ho
        · simp [writeCells, readCells, hb, ho, ho.ne, hb4 o' (by omega)]
        · simp [writeCells, hb, ho, hb4 o (by omega)]
        · simp [writeCells, readCells, hb, ho.ne', show ¬ o' < o by omega]
      · by_cases ho : o' = o
        · simp [writeCells, readCells, hb, ho]
        · simp [writeCells, readCells, hb, ho]
    · have hw : writeCells ((k, c) :: cs) o b = (k, c) :: writeCells cs o b := by
        simp [writeCells, show ¬ o < k by omega, show o ≠ k by omega]
      rw [hw]
      simp only [readCells, ih h4]
      split
      · rw [if_neg (by omega)]
      · split
        · rw [if_neg (by omega)]
        · rfl

theorem cellsWf_writeCells {size : Nat} {cs : List Host.Cell} {lo o : Nat} (h : cellsWf size lo cs = true)
    (hlo : lo ≤ o) (ho : o < size) (b : Byte) : cellsWf size lo (writeCells cs o b) = true := by
  induction cs generalizing lo with
  | nil =>
    by_cases hb : b = unlistedByte
    · simp [writeCells, hb, cellsWf]
    · simpa [writeCells, hb, cellsWf] using ⟨hlo, ho⟩
  | cons x cs ih =>
    obtain ⟨k, c⟩ := x
    obtain ⟨h1, h2, h3, h4⟩ := cellsWf_cons.1 h
    rcases Nat.lt_trichotomy o k with hok | hok | hok
    · by_cases hb : b = unlistedByte
      · simpa [writeCells, hok, hb] using h
      · simpa only [writeCells, hok, hb, if_true, if_false] using
          cellsWf_cons.2 ⟨hlo, ho, hb, cellsWf_cons.2 ⟨by omega, h2, h3, h4⟩⟩
    · subst hok
      by_cases hb : b = unlistedByte
      · simpa [writeCells, hb] using cellsWf_mono h4 (by omega) le_rfl
      · simpa [writeCells, hb] using cellsWf_cons.2 ⟨hlo, ho, hb, h4⟩
    · simpa [writeCells, show ¬ o < k by omega, show o ≠ k by omega] using
        cellsWf_cons.2 ⟨h1, h2, h3, ih h4 (by omega)⟩

/-! ## One byte -/

theorem Memory.getU8_lt {m : Memory} {o : Nat} (h : o < m.size) : m.getU8 o = some (readCells m.cells o) := by
  simp [Memory.getU8, h]

theorem Memory.getU8_ge {m : Memory} {o : Nat} (h : m.size ≤ o) : m.getU8 o = none := by
  simp [Memory.getU8, h]

/-- What a byte write can do. -/
theorem Memory.setU8_some {m m' : Memory} {o : Nat} {b : Byte} (h : m.setU8 o b = some m') :
    o < m.size ∧ m'.size = m.size ∧ m'.cells = writeCells m.cells o b := by
  unfold Memory.setU8 at h
  split at h
  · cases h
  · cases h
    exact ⟨by omega, rfl, rfl⟩

theorem Memory.setU8_wf {m m' : Memory} {o : Nat} {b : Byte} (hw : m.wf = true) (h : m.setU8 o b = some m') :
    m'.wf = true := by
  obtain ⟨ho, hs, hc⟩ := Memory.setU8_some h
  simpa [Memory.wf, hs, hc] using cellsWf_writeCells hw (Nat.zero_le o) ho b

theorem Memory.getU8_setU8 {m m' : Memory} {o : Nat} {b : Byte} (hw : m.wf = true) (h : m.setU8 o b = some m')
    (o' : Nat) : m'.getU8 o' = if o' = o then some b else m.getU8 o' := by
  obtain ⟨ho, hs, hc⟩ := Memory.setU8_some h
  simp only [Memory.getU8, hs, hc, readCells_writeCells hw]
  by_cases h' : o' = o
  · simp [h', ho]
  · simp [h']

/-! ## Two bytes -/

/-- A 16-bit write is two byte writes, both in bounds (R38, R40). -/
theorem Memory.setU16_eq (m : Memory) (o : Nat) (v : Word) :
    m.setU16 o v = if o + 1 ≥ m.size then none
      else (m.setU8 o (hiByte v)).bind fun m' => m'.setU8 (o + 1) (loByte v) := by
  unfold Memory.setU16
  by_cases h : o + 1 ≥ m.size
  · simp [h]
  · simp [Memory.setU8, h, show ¬ m.size ≤ o by omega]

theorem Memory.setU16_some {m m' : Memory} {o : Nat} {v : Word} (h : m.setU16 o v = some m') :
    o + 1 < m.size ∧ ∃ m₁, m.setU8 o (hiByte v) = some m₁ ∧ m₁.setU8 (o + 1) (loByte v) = some m' := by
  rw [Memory.setU16_eq] at h
  split at h
  · cases h
  · exact ⟨by omega, Option.bind_eq_some_iff.1 h⟩

theorem Memory.setU16_wf {m m' : Memory} {o : Nat} {v : Word} (hw : m.wf = true) (h : m.setU16 o v = some m') :
    m'.wf = true := by
  obtain ⟨-, m₁, h1, h2⟩ := Memory.setU16_some h
  exact Memory.setU8_wf (Memory.setU8_wf hw h1) h2

/-! ## Sequences of bytes -/

theorem Memory.putBytes_cons_some {m m' : Memory} {o : Nat} {b : Byte} {bs : List Byte}
    (h : m.putBytes o (b :: bs) = some m') : ∃ m₁, m.setU8 o b = some m₁ ∧ m₁.putBytes (o + 1) bs = some m' :=
  Option.bind_eq_some_iff.1 h

theorem Memory.putBytes_wf {m m' : Memory} {o : Nat} {bs : List Byte} (hw : m.wf = true)
    (h : m.putBytes o bs = some m') : m'.wf = true ∧ m'.size = m.size := by
  induction bs generalizing m o with
  | nil => cases h; exact ⟨hw, rfl⟩
  | cons b bs ih =>
    obtain ⟨m₁, h1, h2⟩ := Memory.putBytes_cons_some h
    obtain ⟨hw', hs⟩ := ih (Memory.setU8_wf hw h1) h2
    exact ⟨hw', hs.trans (Memory.setU8_some h1).2.1⟩

/-- Writing a sequence succeeds exactly when its last byte is in bounds. -/
theorem Memory.putBytes_isSome (m : Memory) (o : Nat) (bs : List Byte) (h : o + bs.length ≤ m.size) :
    ∃ m', m.putBytes o bs = some m' := by
  induction bs generalizing m o with
  | nil => exact ⟨m, rfl⟩
  | cons b bs ih =>
    simp only [List.length_cons] at h
    have h1 : m.setU8 o b = some { m with cells := writeCells m.cells o b } := by
      simp [Memory.setU8, show ¬ m.size ≤ o by omega]
    obtain ⟨m', hm'⟩ := ih { m with cells := writeCells m.cells o b } (o + 1) (show _ ≤ m.size by omega)
    exact ⟨m', by simp [Memory.putBytes, h1, hm']⟩

/-- Where a sequence was written its bytes read back; every other offset reads as before. -/
theorem Memory.getU8_putBytes {m m' : Memory} {o : Nat} {bs : List Byte} (hw : m.wf = true)
    (h : m.putBytes o bs = some m') (o' : Nat) :
    m'.getU8 o' = if o ≤ o' ∧ o' < o + bs.length then bs[o' - o]? else m.getU8 o' := by
  induction bs generalizing m o with
  | nil =>
    cases h
    rw [if_neg (by simp)]
  | cons b bs ih =>
    obtain ⟨m₁, h1, h2⟩ := Memory.putBytes_cons_some h
    rw [ih (Memory.setU8_wf hw h1) h2, Memory.getU8_setU8 hw h1]
    simp only [List.length_cons]
    by_cases ho : o' = o
    · subst ho
      simp
    · by_cases hr : o + 1 ≤ o' ∧ o' < o + 1 + bs.length
      · rw [if_pos hr, if_pos (by omega), show o' - o = (o' - (o + 1)) + 1 by omega, List.getElem?_cons_succ]
      · rw [if_neg hr, if_neg ho, if_neg (by omega)]

theorem Memory.readBytes_succ_some {m : Memory} {o n : Nat} {bs : List Byte} :
    m.readBytes o (n + 1) = some bs ↔ ∃ b bs', m.getU8 o = some b ∧ m.readBytes (o + 1) n = some bs' ∧ bs = b :: bs' := by
  constructor
  · intro h
    obtain ⟨b, hb, h⟩ := Option.bind_eq_some_iff.1 h
    obtain ⟨bs', hbs, h⟩ := Option.bind_eq_some_iff.1 h
    cases h
    exact ⟨b, bs', hb, hbs, rfl⟩
  · rintro ⟨b, bs', hb, hbs, rfl⟩
    simp [Memory.readBytes, hb, hbs]

/-! ## The canonical form -/

theorem Memory.new_wf (n : Nat) : (Memory.new n).wf = true := rfl

/-- The memory of the reset state is in its canonical form. -/
theorem State.reset_mem_wf : State.reset.mem.wf = true := rfl

theorem State.load_wf {s t : State} {p : List Byte} (hw : s.mem.wf = true) (h : s.load p = some t) :
    t.mem.wf = true := by
  unfold State.load at h
  split at h
  · cases h
  · obtain ⟨m, hm, rfl⟩ := Option.map_eq_some_iff.1 h
    exact (Memory.putBytes_wf hw hm).1

theorem State.placeBytes_wf {s : State} (bytes : List Byte) (hw : s.mem.wf = true) :
    (s.placeBytes bytes).mem.wf = true := by
  have grown : ∀ n, Memory.wf { s.mem with size := max s.mem.size n } = true := fun n =>
    cellsWf_mono hw le_rfl (le_max_left _ _)
  simp only [State.placeBytes]
  cases hp : Memory.putBytes _ _ bytes with
  | none => exact grown _
  | some m => exact (Memory.putBytes_wf (grown _) hp).1

end Sys2Proof.Machine
end

