-- ==== Sys2Proof/Laws/Ops.lean ====
section
/-! SUPPORT. One spec lemma per shared operation: what a fetch, a register access and the fetches of one
instruction can do. -/

namespace Sys2Proof.Machine

/-! ## Parts of a step -/

@[simp] theorem Res.ok_bind {α β : Type} (a : α) (s : State) (f : α → State → Res β) : (Res.ok a s).bind f = f a s := rfl

@[simp] theorem Res.halt_bind {α β : Type} (r : HaltReason) (s : State) (f : α → State → Res β) :
    (Res.halt r s : Res α).bind f = .halt r s := rfl

/-- A sequence completes only if both its parts do. -/
theorem Res.bind_eq_ok {α β : Type} {x : Res α} {f : α → State → Res β} {b : β} {t : State} (h : x.bind f = .ok b t) :
    ∃ a s, x = .ok a s ∧ f a s = .ok b t := by
  cases x with
  | ok a s => exact ⟨a, s, rfl, h⟩
  | halt r s => cases h

/-- A sequence halts in its first part, or completes it and halts in the second. -/
theorem Res.bind_eq_halt {α β : Type} {x : Res α} {f : α → State → Res β} {r : HaltReason} {t : State}
    (h : x.bind f = .halt r t) : x = .halt r t ∨ ∃ a s, x = .ok a s ∧ f a s = .halt r t := by
  cases x with
  | ok a s => exact .inr ⟨a, s, rfl, h⟩
  | halt r s =>
    cases h
    exact .inl rfl

/-- However a step ends, it has a next state: the one it completed in, or the entry to `halted`. -/
theorem Res.outcome_cases (x : Res Unit) :
    (∃ s, x = .ok () s ∧ x.outcome = .next s) ∨ ∃ r s, x = .halt r s ∧ x.outcome = .next (haltEntry r s) := by
  cases x with
  | ok a s => exact .inl ⟨s, rfl, rfl⟩
  | halt r s => exact .inr ⟨r, s, rfl, rfl⟩

/-! ## Fetches -/

theorem Memory.lt_fetchEnd {m : Memory} {a : Nat} : a < m.fetchEnd ↔ a < m.size ∧ a < Config.maxAddr :=
  Nat.lt_min

/-- What can be fetched from an offset is its byte and then what can be fetched from the next one. -/
theorem Memory.fetchable_cons {m : Memory} {a : Nat} (h : a < m.fetchEnd) :
    m.fetchable a = readCells m.cells a :: m.fetchable (a + 1) := by
  unfold Memory.fetchable
  rw [show m.fetchEnd - a = (m.fetchEnd - (a + 1)) + 1 by omega, List.range_succ_eq_map]
  simp [Function.comp_def, Nat.add_assoc, Nat.add_comm 1]

theorem Memory.fetchable_nil {m : Memory} {a : Nat} (h : m.fetchEnd ≤ a) : m.fetchable a = [] := by
  unfold Memory.fetchable
  rw [show m.fetchEnd - a = 0 by omega]
  rfl

theorem Memory.length_fetchable (m : Memory) (a : Nat) : (m.fetchable a).length = m.fetchEnd - a := by
  simp [Memory.fetchable]

/-- Bytes read in bounds and below 0xFFFF are the first bytes that can be fetched. -/
theorem Memory.fetchable_of_readBytes {m : Memory} {n a : Nat} {bs : List Byte} (h : m.readBytes a n = some bs)
    (ha : a + n ≤ Config.maxAddr) : m.fetchable a = bs ++ m.fetchable (a + n) := by
  induction n generalizing a bs with
  | zero => cases h; rfl
  | succ n ih =>
    obtain ⟨b, bs', hb, hbs, rfl⟩ := Memory.readBytes_succ_some.1 h
    have hlt : a < m.size := by
      by_contra hc
      rw [Memory.getU8_ge (Nat.le_of_not_lt hc)] at hb
      cases hb
    rw [Memory.getU8_lt hlt, Option.some.injEq] at hb
    rw [Memory.fetchable_cons (Memory.lt_fetchEnd.2 ⟨hlt, by omega⟩), ih hbs (by omega), hb]
    simp [Nat.add_assoc, Nat.add_comm 1]

theorem fetchU8_eq (s : State) :
    fetchU8 s = if (s.reg .ip).toNat < s.mem.fetchEnd
      then .ok (readCells s.mem.cells (s.reg .ip).toNat) (s.advance 1) else .halt .badMemoryAccess s := by
  unfold fetchU8
  by_cases h : (s.reg .ip).toNat < s.mem.size
  · rw [Memory.getU8_lt h]
    by_cases h' : (s.reg .ip).toNat < Config.maxAddr
    · simp [Memory.lt_fetchEnd, h, h', show ¬ Config.maxAddr < (s.reg .ip).toNat + 1 by omega, State.advance]
    · simp [Memory.lt_fetchEnd, h', show Config.maxAddr < (s.reg .ip).toNat + 1 by omega]
  · simp [Memory.getU8_ge (Nat.le_of_not_lt h), Memory.lt_fetchEnd, h]

theorem fetchU16_eq (s : State) :
    fetchU16 s = if (s.reg .ip).toNat + 1 < s.mem.fetchEnd
      then .ok (joinBytes (readCells s.mem.cells (s.reg .ip).toNat) (readCells s.mem.cells ((s.reg .ip).toNat + 1)))
        (s.advance 2)
      else .halt .badMemoryAccess s := by
  unfold fetchU16 Memory.getU16
  by_cases h : (s.reg .ip).toNat + 1 < s.mem.size
  · rw [if_neg (by omega)]
    by_cases h' : (s.reg .ip).toNat + 1 < Config.maxAddr
    · simp [Memory.lt_fetchEnd, h, h', show ¬ Config.maxAddr < (s.reg .ip).toNat + 2 by omega, State.advance]
    · simp [Memory.lt_fetchEnd, h', show Config.maxAddr < (s.reg .ip).toNat + 2 by omega]
  · simp [Memory.lt_fetchEnd, h, show s.mem.size ≤ (s.reg .ip).toNat + 1 by omega]

/-- A fetch of one byte that succeeds moves past it; one that fails leaves the state as it was (R82). -/
theorem fetchU8_ok {s t : State} {b : Byte} (h : fetchU8 s = .ok b t) : t = s.advance 1 := by
  rw [fetchU8_eq] at h
  split at h <;> cases h
  rfl

theorem fetchU8_halt {s t : State} {r : HaltReason} (h : fetchU8 s = .halt r t) : t = s ∧ r = .badMemoryAccess := by
  rw [fetchU8_eq] at h
  split at h <;> cases h
  exact ⟨rfl, rfl⟩

theorem fetchU16_ok {s t : State} {v : Word} (h : fetchU16 s = .ok v t) : t = s.advance 2 := by
  rw [fetchU16_eq] at h
  split at h <;> cases h
  rfl

theorem fetchU16_halt {s t : State} {r : HaltReason} (h : fetchU16 s = .halt r t) : t = s ∧ r = .badMemoryAccess := by
  rw [fetchU16_eq] at h
  split at h <;> cases h
  exact ⟨rfl, rfl⟩

/-! ## Registers by id -/

theorem readReg_some {id : Byte} {r : RegId} (h : RegId.ofByte? id = some r) (s : State) :
    readReg id s = .ok (s.reg r) s := by simp [readReg, h]

theorem readReg_none {id : Byte} (h : RegId.ofByte? id = none) (s : State) :
    readReg id s = .halt .badMemoryAccess s := by simp [readReg, h]

theorem writeReg_some {id : Byte} {r : RegId} (h : RegId.ofByte? id = some r) (v : Word) (s : State) :
    writeReg id v s = .ok () (s.setReg r v) := by simp [writeReg, h]

theorem writeReg_none {id : Byte} (h : RegId.ofByte? id = none) (v : Word) (s : State) :
    writeReg id v s = .halt .badMemoryAccess s := by simp [writeReg, h]

/-! ## The fetches of one instruction -/

/-- Operand fetches that all succeed move past exactly the operands (R19, R57). -/
theorem fetchOperands_ok {op : Opcode} {s t : State} {i : Instr} (h : fetchOperands op s = .ok i t) :
    t = s.advance (op.length - 1) ∧ i.opcode = op := by
  cases op with
  | movLitReg =>
    obtain ⟨o, u, ho, h⟩ := Res.bind_eq_ok h
    obtain ⟨v, u1, hv, ho⟩ := Res.bind_eq_ok ho
    obtain ⟨b, u2, hb, ho⟩ := Res.bind_eq_ok ho
    cases ho; cases h
    rw [fetchU8_ok hb, fetchU16_ok hv, State.advance_advance]
    exact ⟨rfl, rfl⟩
  | movLitR1 =>
    obtain ⟨v, u, hv, h⟩ := Res.bind_eq_ok h
    cases h
    exact ⟨fetchU16_ok hv, rfl⟩
  | movLitR2 =>
    obtain ⟨v, u, hv, h⟩ := Res.bind_eq_ok h
    cases h
    exact ⟨fetchU16_ok hv, rfl⟩
  | addRegReg =>
    obtain ⟨o, u, ho, h⟩ := Res.bind_eq_ok h
    obtain ⟨a, u1, ha, ho⟩ := Res.bind_eq_ok ho
    obtain ⟨b, u2, hb, ho⟩ := Res.bind_eq_ok ho
    cases ho; cases h
    rw [fetchU8_ok hb, fetchU8_ok ha, State.advance_advance]
    exact ⟨rfl, rfl⟩
  | endExec =>
    cases h
    exact ⟨(State.advance_zero s).symm, rfl⟩

/-- Operand fetches that fail halt with `BadMemoryAccess` and have moved only `ip`, by at most two bytes. -/
theorem fetchOperands_halt {op : Opcode} {s t : State} {r : HaltReason} (h : fetchOperands op s = .halt r t) :
    r = .badMemoryAccess ∧ ∃ n, n ≤ 2 ∧ t = s.advance n := by
  have here : ∀ {u : State}, u = s → ∃ n, n ≤ 2 ∧ u = s.advance n := fun hu => ⟨0, by omega, by simp [hu]⟩
  cases op with
  | movLitReg =>
    rcases Res.bind_eq_halt h with h | ⟨o, u, -, h⟩
    · rcases Res.bind_eq_halt h with h | ⟨v, u1, hv, h⟩
      · exact ⟨(fetchU16_halt h).2, here (fetchU16_halt h).1⟩
      · rcases Res.bind_eq_halt h with h | ⟨b, u2, -, h⟩
        · exact ⟨(fetchU8_halt h).2, 2, le_rfl, by rw [(fetchU8_halt h).1, fetchU16_ok hv]⟩
        · cases h
    · cases h
  | movLitR1 =>
    rcases Res.bind_eq_halt h with h | ⟨v, u, -, h⟩
    · exact ⟨(fetchU16_halt h).2, here (fetchU16_halt h).1⟩
    · cases h
  | movLitR2 =>
    rcases Res.bind_eq_halt h with h | ⟨v, u, -, h⟩
    · exact ⟨(fetchU16_halt h).2, here (fetchU16_halt h).1⟩
    · cases h
  | addRegReg =>
    rcases Res.bind_eq_halt h with h | ⟨o, u, -, h⟩
    · rcases Res.bind_eq_halt h with h | ⟨a, u1, ha, h⟩
      · exact ⟨(fetchU8_halt h).2, here (fetchU8_halt h).1⟩
      · rcases Res.bind_eq_halt h with h | ⟨b, u2, -, h⟩
        · exact ⟨(fetchU8_halt h).2, 1, by omega, by rw [(fetchU8_halt h).1, fetchU8_ok ha]⟩
        · cases h
    · cases h
  | endExec => cases h

/-- The fetches of one instruction move `ip` past it and change nothing else (R19, R81). -/
theorem fetchInstr_ok {m : OpcodeMap} {s t : State} {i : Instr} (h : fetchInstr m s = .ok i t) :
    t = s.advance i.length := by
  obtain ⟨b, u, hb, h⟩ := Res.bind_eq_ok h
  split at h
  · cases h
  · next op hop =>
    obtain ⟨rfl, rfl⟩ := fetchOperands_ok h
    rw [fetchU8_ok hb, State.advance_advance]
    cases i <;> rfl

/-- Fetches that halt have moved only `ip`, by at most three bytes. -/
theorem fetchInstr_halt {m : OpcodeMap} {s t : State} {r : HaltReason} (h : fetchInstr m s = .halt r t) :
    ∃ n, n ≤ 3 ∧ t = s.advance n := by
  rcases Res.bind_eq_halt h with h | ⟨b, u, hb, h⟩
  · exact ⟨0, by omega, by simp [(fetchU8_halt h).1]⟩
  · rw [fetchU8_ok hb] at h
    split at h
    · cases h
      exact ⟨1, by omega, rfl⟩
    · obtain ⟨-, n, hn, rfl⟩ := fetchOperands_halt h
      exact ⟨1 + n, by omega, State.advance_advance _ _ _⟩

end Sys2Proof.Machine
end

