-- ==== Sys2Proof/Laws/Exec.lean ====
section
/-! SUPPORT. One spec lemma per meaning, and what `exec`, a step and a run can do. -/

namespace Sys2Proof.Machine

/-! ## The meanings -/

theorem execMovLitReg_some {rd : Byte} {r : RegId} (h : RegId.ofByte? rd = some r) (lit : Word) (s : State) :
    execMovLitReg lit rd s = .next (s.setReg r lit) := by
  simp [execMovLitReg, writeReg_some h, Res.outcome]

theorem execMovLitReg_none {rd : Byte} (h : RegId.ofByte? rd = none) (lit : Word) (s : State) :
    execMovLitReg lit rd s = .next (haltEntry .badMemoryAccess s) := by
  simp [execMovLitReg, writeReg_none h, Res.outcome]

theorem execAddRegReg_some {ra rb : Byte} {p q : RegId} (ha : RegId.ofByte? ra = some p) (hb : RegId.ofByte? rb = some q)
    (s : State) : execAddRegReg ra rb s = .next (s.setReg .acc (s.reg p + s.reg q)) := by
  simp [execAddRegReg, readReg_some ha, readReg_some hb, Res.outcome, addWrap]

theorem execAddRegReg_none {ra rb : Byte} (h : RegId.ofByte? ra = none ∨ RegId.ofByte? rb = none) (s : State) :
    execAddRegReg ra rb s = .next (haltEntry .badMemoryAccess s) := by
  cases ha : RegId.ofByte? ra with
  | none => simp [execAddRegReg, readReg_none ha, Res.outcome]
  | some p =>
    have hb : RegId.ofByte? rb = none := by simpa [ha] using h
    simp [execAddRegReg, readReg_some ha, readReg_none hb, Res.outcome]

/-- What an instruction can do: a well-formed one other than END writes its destination; END halts with
success; one that is not well formed halts with `BadMemoryAccess`. -/
theorem exec_cases (i : Instr) (s : State) :
    (∃ r v, i.wf = true ∧ i.dest = some r ∧ exec i s = .next (s.setReg r v)) ∨
      (i = .endExec ∧ exec i s = .next (haltEntry .endOfExecution s)) ∨
      (i.wf = false ∧ exec i s = .next (haltEntry .badMemoryAccess s)) := by
  cases i with
  | movLitReg lit rd =>
    cases h : RegId.ofByte? rd with
    | none => exact .inr (.inr ⟨RegId.ofByte?_none.1 h, execMovLitReg_none h lit s⟩)
    | some r => exact .inl ⟨r, lit, RegId.ofByte?_some.1 ⟨r, h⟩, h, execMovLitReg_some h lit s⟩
  | movLitR1 lit => exact .inl ⟨.r1, lit, rfl, rfl, rfl⟩
  | movLitR2 lit => exact .inl ⟨.r2, lit, rfl, rfl, rfl⟩
  | addRegReg ra rb =>
    cases ha : RegId.ofByte? ra with
    | none =>
      exact .inr (.inr ⟨by simp [Instr.wf, RegId.ofByte?_none.1 ha], execAddRegReg_none (.inl ha) s⟩)
    | some p =>
      cases hb : RegId.ofByte? rb with
      | none =>
        exact .inr (.inr ⟨by simp [Instr.wf, RegId.ofByte?_none.1 hb], execAddRegReg_none (.inr hb) s⟩)
      | some q =>
        exact .inl ⟨.acc, s.reg p + s.reg q,
          by simp [Instr.wf, RegId.ofByte?_some.1 ⟨p, ha⟩, RegId.ofByte?_some.1 ⟨q, hb⟩], rfl,
          execAddRegReg_some ha hb s⟩
  | endExec => exact .inr (.inl ⟨rfl, rfl⟩)

/-! ## One step -/

/-- What a step that has a next state was: a halt while fetching, or the effect of the instruction at `ip`. -/
theorem stepWith_cases {m : OpcodeMap} {s t : State} (h : stepWith m s = .next t) :
    s.run = .running ∧
      ((∃ r u, fetchInstr m s = .halt r u ∧ t = haltEntry r u) ∨
        ∃ i, fetchInstr m s = .ok i (s.advance i.length) ∧ exec i (s.advance i.length) = .next t) := by
  unfold stepWith at h
  split at h
  · cases h
  · next hr =>
    refine ⟨hr, ?_⟩
    split at h
    · next r u hf =>
      cases h
      exact .inl ⟨r, u, hf, rfl⟩
    · next i u hf =>
      have hu := fetchInstr_ok hf
      subst hu
      exact .inr ⟨i, hf, h⟩

theorem stepWith_halted {m : OpcodeMap} {s : State} {r : HaltReason} (h : s.run = .halted r) :
    stepWith m s = .fault (.engineHalted r) := by simp [stepWith, h]

theorem stepWith_fetch_halt {m : OpcodeMap} {s u : State} {r : HaltReason} (hr : s.run = .running)
    (h : fetchInstr m s = .halt r u) : stepWith m s = .next (haltEntry r u) := by simp [stepWith, hr, h]

theorem stepWith_fetch_ok {m : OpcodeMap} {s u : State} {i : Instr} (hr : s.run = .running)
    (h : fetchInstr m s = .ok i u) : stepWith m s = exec i u := by simp [stepWith, hr, h]

/-- A running engine always has a next state (R68). -/
theorem stepWith_running {m : OpcodeMap} {s : State} (hr : s.run = .running) : ∃ t, stepWith m s = .next t := by
  cases hf : fetchInstr m s with
  | halt r u => exact ⟨_, stepWith_fetch_halt hr hf⟩
  | ok i u =>
    rw [stepWith_fetch_ok hr hf]
    rcases exec_cases i u with ⟨r, v, -, -, h⟩ | ⟨-, h⟩ | ⟨-, h⟩ <;> exact ⟨_, h⟩

/-! ## Runs -/

theorem stepsWith_succ_next {m : OpcodeMap} {k : Nat} {s t : State} :
    stepsWith m (k + 1) s = .next t ↔ ∃ u, stepWith m s = .next u ∧ stepsWith m k u = .next t := by
  simp only [stepsWith]
  cases stepWith m s <;> simp

theorem stepsWith_add {m : OpcodeMap} {j k : Nat} {s t : State} :
    stepsWith m (j + k) s = .next t ↔ ∃ u, stepsWith m j s = .next u ∧ stepsWith m k u = .next t := by
  induction j generalizing s with
  | zero => simp [stepsWith]
  | succ j ih =>
    rw [show j + 1 + k = (j + k) + 1 by omega, stepsWith_succ_next]
    constructor
    · rintro ⟨u, hu, h⟩
      obtain ⟨w, hw, h⟩ := ih.1 h
      exact ⟨w, stepsWith_succ_next.2 ⟨u, hu, hw⟩, h⟩
    · rintro ⟨w, hw, h⟩
      obtain ⟨u, hu, hw⟩ := stepsWith_succ_next.1 hw
      exact ⟨u, hu, ih.2 ⟨w, hw, h⟩⟩

end Sys2Proof.Machine
end

