-- ==== Sys2Proof/Laws/PerInstr.lean ====
section
/-! SUPPORT. Statements about every instruction as syntax, one lemma per constructor. -/

namespace Sys2Proof.Laws.EncodingHead

/-- The encoding of an instruction begins with the byte its opcode has (R56, R64). -/
def Statement (i : Instr) : Prop := ∀ m : OpcodeMap, (encode m i).head? = some (m.byteOf i.opcode)

theorem movLitReg (lit : Word) (rd : Byte) : Statement (.movLitReg lit rd) := fun _ => rfl
theorem movLitR1 (lit : Word) : Statement (.movLitR1 lit) := fun _ => rfl
theorem movLitR2 (lit : Word) : Statement (.movLitR2 lit) := fun _ => rfl
theorem addRegReg (ra rb : Byte) : Statement (.addRegReg ra rb) := fun _ => rfl
theorem endExec : Statement .endExec := fun _ => rfl

end Sys2Proof.Laws.EncodingHead
end

