-- ==== Sys2Proof/Tests/Slice0.lean ====
section
/-! SUPPORT. The model's own tests. Expected results come from spec/95_test_vectors.md (T, V and P numbers) and from
the rules by hand. Each test of an instruction is one step on a small state. The witnesses at the end show, for each
statement of Certificates/Slice0/Obligations.lean that has hypotheses, a state and operands that meet them. -/

namespace Sys2Proof.Tests.Slice0

open Sys2Proof Sys2Proof.Machine

/-! ## Helpers -/

/-- An engine of `n` bytes with `bytes` loaded at offset 0. -/
def engine (n : Nat) (bytes : List Byte) : State := ((State.construct n).load bytes).getD (State.construct n)

/-- An engine of `n` bytes with `ip` at `a` and `bytes` there. -/
def engineAt (n : Nat) (a : Word) (bytes : List Byte) : State :=
  { State.construct n with
    mem := ((Memory.new n).putBytes a.toNat bytes).getD (Memory.new n), regs := RegFile.zero.set .ip a }

/-- The step has a next state, and it is as `p` says. -/
def after (s : State) (p : State → Bool) : Bool :=
  match step s with
  | .next t => p t
  | .fault _ => false
  | .refused _ => false

/-- The step halts with `r` and leaves `ip` at `p`. -/
def haltsAt (s : State) (r : HaltReason) (p : Word) : Bool := after s fun t => t.run = .halted r && t.reg .ip = p

/-! ## Well-formedness: each check refuses an ill-formed term -/

theorem test_wf_movLitReg_refuses_id_10 : (Instr.movLitReg 0x1234 10).wf = false := by decide
theorem test_wf_addRegReg_refuses_first_id : (Instr.addRegReg 255 2).wf = false := by decide
theorem test_wf_addRegReg_refuses_second_id : (Instr.addRegReg 2 10).wf = false := by decide
theorem test_wf_accepts_id_9 : (Instr.movLitReg 0x1234 9).wf = true := by decide
theorem test_opcodeMap_wf_refuses_shared_byte :
    (OpcodeMap.mk 0x10 0x11 0x12 0x10 0xFF).wf = false := by decide
theorem test_memory_wf_refuses_listed_zero : (Memory.mk 4 [(1, 0)]).wf = false := by decide
theorem test_memory_wf_refuses_unsorted : (Memory.mk 4 [(2, 7), (1, 7)]).wf = false := by decide
theorem test_memory_wf_refuses_out_of_bounds : (Memory.mk 4 [(4, 7)]).wf = false := by decide

/-! ## Decoding: words written bit by bit from R58 to R61 and R64 -/

/-- Format LR (R60), the example of R100: `10 12 34 04`. -/
theorem test_decode_movLitReg :
    decode opcDefault [0b00010000, 0b00010010, 0b00110100, 0b00000100] = .ok (.movLitReg 0x1234 4, []) := by decide

/-- Format L (R59), the example of R102: `11 BE EF`. -/
theorem test_decode_movLitR1 :
    decode opcDefault [0b00010001, 0b10111110, 0b11101111] = .ok (.movLitR1 0xBEEF, []) := by decide

/-- Format L (R59), the example of R104: `12 00 07`. -/
theorem test_decode_movLitR2 :
    decode opcDefault [0b00010010, 0b00000000, 0b00000111] = .ok (.movLitR2 0x0007, []) := by decide

/-- Format RR (R61), the example of R106: `14 02 03`, the first id is `ra`. -/
theorem test_decode_addRegReg :
    decode opcDefault [0b00010100, 0b00000010, 0b00000011] = .ok (.addRegReg 2 3, []) := by decide

/-- Format N (R58), the example of R108: `FF`. The byte after it is given back. -/
theorem test_decode_endExec : decode opcDefault [0b11111111, 0b00010011] = .ok (.endExec, [0x13]) := by decide

/-- A reserved register id decodes (R63). -/
theorem test_decode_keeps_reserved_id : decode opcDefault [0x10, 0x12, 0x34, 0xFF] = .ok (.movLitReg 0x1234 255, []) := by
  decide

/-- The byte between the assigned 0x12 and 0x14 (V41). -/
theorem test_decode_unassigned : decode opcDefault [0x13, 0xFF] = .error (.unassigned 0x13) := by decide

/-- The five rows of the opcode table, in the table's own numbering: the opcode is the top byte. -/
theorem test_decodeTableWord_rows :
    decodeTableWord 32 0x10123404 = some (.movLitReg 0x1234 4) ∧ decodeTableWord 24 0x11BEEF = some (.movLitR1 0xBEEF) ∧
      decodeTableWord 24 0x120007 = some (.movLitR2 7) ∧ decodeTableWord 24 0x140203 = some (.addRegReg 2 3) ∧
      decodeTableWord 8 0xFF = some .endExec ∧ decodeTableWord 8 0x13 = none := by decide

/-- The notation of R70: the first lines of program P3, and the offset its label names. -/
theorem test_assemble_P3 :
    assemble opcDefault [.instr (.movLitReg 8 RegId.ip.toByte), .raw [0x13, 0x13, 0x13, 0x13],
      .instr (.movLitReg 0x1234 RegId.r8.toByte), .instr .endExec] =
        [0x10, 0x00, 0x08, 0x00, 0x13, 0x13, 0x13, 0x13, 0x10, 0x12, 0x34, 0x09, 0xFF] ∧
      labelOffset opcDefault [.instr (.movLitReg 8 0), .raw [0x13, 0x13, 0x13, 0x13], .instr .endExec] 2 = 8 := by decide

/-! ## The step runs the word placed where it fetches -/

theorem test_withFetchWord_movLitReg :
    after (State.reset.withFetchWord 32 0x10123409) (fun t => t.reg .r8 = 0x1234 && t.reg .ip = 4) = true := by decide
theorem test_withFetchWord_movLitR1 :
    after (State.reset.withFetchWord 24 0x11BEEF) (fun t => t.reg .r1 = 0xBEEF && t.reg .ip = 3) = true := by decide
theorem test_withFetchWord_movLitR2 :
    after (State.reset.withFetchWord 24 0x120007) (fun t => t.reg .r2 = 7 && t.reg .ip = 3) = true := by decide
theorem test_withFetchWord_addRegReg :
    after (State.reset.withFetchWord 24 0x140000) (fun t => t.reg .acc = 6 && t.reg .ip = 3) = true := by decide
theorem test_withFetchWord_endExec :
    haltsAt (State.reset.withFetchWord 8 0xFF) .endOfExecution 1 = true := by decide

/-- Also from a halted engine without memory whose `ip` is at the top of the address space. -/
theorem test_withFetchWord_anywhere :
    after ((haltEntry .badMemoryAccess ((State.construct 0).setReg .ip 0xFFFF)).withFetchWord 24 0x11BEEF)
      (fun t => t.reg .r1 = 0xBEEF && t.run = .running) = true := by decide

/-! ## Instructions -/

/-- V8: with register id 0, MOV_LIT_REG jumps, and the literal replaces the advanced `ip`. -/
theorem test_movLitReg_jump : after (engine 4 [0x10, 0x12, 0x34, 0x00]) (fun t => t.reg .ip = 0x1234 && t.run = .running) = true := by
  decide

/-- V9: id 10 halts after all fetches. -/
theorem test_movLitReg_id_10 : haltsAt (engine 4 [0x10, 0x12, 0x34, 0x0A]) .badMemoryAccess 4 = true := by decide

/-- V18: the literal is not sign-extended or changed. -/
theorem test_movLitR1 : after (engine 3 [0x11, 0x80, 0x00]) (fun t => t.reg .r1 = 0x8000 && t.reg .ip = 3) = true := by decide

/-- V3: the second literal byte is out of bounds, and `ip` does not move by 1. -/
theorem test_movLitR1_cut : haltsAt (engine 2 [0x11, 0xAB]) .badMemoryAccess 1 = true := by decide

/-- V20. -/
theorem test_movLitR2 :
    after (engine 3 [0x12, 0xFF, 0xFF]) (fun t => t.reg .r2 = 0xFFFF && t.reg .r1 = 0 && t.reg .ip = 3) = true := by decide

/-- V46: a literal at 0xFFFE would take `ip` to 0x10000 (with MOV_LIT_R2 in place of MOV_LIT_R1). -/
theorem test_movLitR2_top : haltsAt (engineAt 0x10000 0xFFFD [0x12, 0xAA, 0xBB]) .badMemoryAccess 0xFFFE = true := by decide

/-- V28, T1: the sum wraps. -/
theorem test_addRegReg_wraps :
    after (((engine 3 [0x14, 2, 3]).setReg .r1 0xFFFF).setReg .r2 2) (fun t => t.reg .acc = 1 && t.reg .r1 = 0xFFFF) = true := by
  decide

/-- V36: the second id is missing. -/
theorem test_addRegReg_cut : haltsAt (engine 2 [0x14, 0x02]) .badMemoryAccess 2 = true := by decide

/-- V38. -/
theorem test_endExec : haltsAt (engine 1 [0xFF]) .endOfExecution 1 = true := by decide

/-- V44: at 0xFFFF not even END runs. -/
theorem test_endExec_top : haltsAt (engineAt 0x10000 0xFFFF [0xFF]) .badMemoryAccess 0xFFFF = true := by decide

/-- V41 and V1: an unassigned opcode, and no byte at all. -/
theorem test_unassigned_and_empty :
    haltsAt (engine 1 [0x13]) .unexpectedInstruction 1 = true ∧ haltsAt (engine 0 []) .badMemoryAccess 0 = true := by decide

/-- T4: the byte order and the bounds of a memory `12 34`. -/
theorem test_memory_T4 :
    (engine 2 [0x12, 0x34]).mem.getU16 0 = some 0x1234 ∧ (engine 2 [0x12, 0x34]).mem.getU16 1 = none ∧
      (engine 2 [0x12, 0x34]).mem.setU16 1 0xBEEF = none ∧
      ((engine 2 [0x12, 0x34]).mem.setU16 0 0xBEEF).bind (fun m => m.getU8 1) = some 0xEF := by decide

/-- The host: a load that is too long, a name of no register, and a load after the first step. -/
theorem test_host_refusals :
    (match hostCall opcDefault (.load [1, 2]) (Session.new 1) with
      | .next (r, h) => decide (r = .outOfBounds ∧ h.engine = State.construct 1 ∧ h.phase = .loadFailed)
      | _ => false) = true ∧
    (match hostCall opcDefault (.get "ax") (Session.new 1) with
      | .refused r => decide (r = .unknownRegisterName "ax")
      | _ => false) = true ∧
    (match hostCall opcDefault (.load []) { engine := State.construct 1, phase := .started } with
      | .refused r => decide (r = .loadAfterFirstStep)
      | _ => false) = true := by decide

/-! ## Witnesses: the hypotheses of the statements can be met

One theorem a statement, named after it. The opcode assignment is the default one, which is well formed. -/

theorem default_wf : opcDefault.wf = true := by decide

theorem witness_NewEngineRegistersZeroAndRunning : (0 : Nat) < 20 ∧ (19 : Nat) < 20 := by decide

theorem witness_LoadsOverwritePrefixes : ([1, 2] : List Byte).length ≤ 2 ∧ ([3] : List Byte).length ≤ 2 := by decide

theorem witness_LoadWritesProgramOrFails :
    (State.construct 2).mem.wf = true ∧ (State.construct 2).mem.size < ([1, 2, 3] : List Byte).length ∧
      ([1, 2] : List Byte).length ≤ (State.construct 2).mem.size := by decide

theorem witness_LoadTwiceIsLoadOnce :
    (State.construct 2).mem.wf = true ∧ (State.construct 2).load [1, 2] = some (engine 2 [1, 2]) := by decide

theorem witness_MemoryAccessBounds :
    1 < (Memory.new 2).size ∧ (Memory.new 2).size ≤ 2 ∧ 0 + 1 < (Memory.new 2).size ∧ (Memory.new 2).size ≤ 1 + 1 := by decide

theorem witness_WordAccessIsTwoBigEndianBytes : (Memory.new 2).wf = true ∧ 0 + 1 < (Memory.new 2).size := by decide

theorem witness_CanonicalMemoriesWithEqualBytesAreEqual :
    ∃ m m' : Memory, m.wf = true ∧ m'.wf = true ∧ m.size = m'.size ∧ (∀ o, m.getU8 o = m'.getU8 o) ∧ m ≠ Memory.new 2 :=
  ⟨Memory.mk 2 [(0, 7)], Memory.mk 2 [(0, 7)], rfl, rfl, rfl, fun _ => rfl, by decide⟩

theorem witness_RegisterIdsArePositionsInNameTable : 10 ≤ (10 : Byte).toNat ∧ 10 ≤ (255 : Byte).toNat := by decide

theorem witness_SetThenGetRegisterByName :
    RegId.ofName? "r5" = some .r5 ∧ RegId.ofName? "r4" = some .r4 ∧ "r5" ≠ "r4" := by decide

theorem witness_RegisterBankIsTheRegisterFile : 10 ≤ (10 : Byte).toNat := by decide

theorem witness_DecodedBytesAreTheEncoding : decode opcDefault [0x14, 2, 3, 9] = .ok (.addRegReg 2 3, [9]) := by decide

theorem witness_OpcodeByteFixesLength :
    opcDefault.opcodeOf 0x10 = some .movLitReg ∧ Opcode.length .movLitReg ≤ ([1, 2, 3] : List Byte).length + 1 ∧
      ([1, 2] : List Byte).length + 1 < Opcode.length .movLitReg ∧ opcDefault.opcodeOf 0 = none := by decide

theorem witness_FetchU8ReadsByteAndAdvances :
    (State.construct 0).mem.size ≤ ((State.construct 0).reg .ip).toNat ∧
      ((engineAt 0x10000 0xFFFF [0xFF]).reg .ip).toNat = 0xFFFF ∧
      ((engineAt 0x10000 0xFFFE [0xFF]).reg .ip).toNat < (engineAt 0x10000 0xFFFE [0xFF]).mem.size ∧
      ((engineAt 0x10000 0xFFFE [0xFF]).reg .ip).toNat ≠ 0xFFFF := by decide

theorem witness_FetchU16ReadsWordAndAdvances :
    (State.construct 1).mem.size ≤ ((State.construct 1).reg .ip).toNat + 1 ∧
      0xFFFE ≤ ((engineAt 0x10000 0xFFFE [1, 2]).reg .ip).toNat ∧
      ((engineAt 0x10000 0xFFFD [1, 2]).reg .ip).toNat + 1 < (engineAt 0x10000 0xFFFD [1, 2]).mem.size ∧
      ((engineAt 0x10000 0xFFFD [1, 2]).reg .ip).toNat < 0xFFFE := by decide

theorem witness_StepRunsInstructionAtIp :
    (engineAt 0x10000 0xFFFB [0x10, 0x12, 0x34, 9]).run = .running ∧
      InstrAt opcDefault (.movLitReg 0x1234 9) (engineAt 0x10000 0xFFFB [0x10, 0x12, 0x34, 9]) :=
  ⟨rfl, by decide, by decide⟩

/-- One running state for each of the three ways a fetch ends: an instruction, an unassigned byte, a cut. -/
theorem witness_EngineFetchRefinesDecoder :
    (engine 3 [0x11, 0xAB, 0xCD]).run = .running ∧
      decode opcDefault ((engine 3 [0x11, 0xAB, 0xCD]).mem.fetchable 0) = .ok (.movLitR1 0xABCD, []) ∧
      decode opcDefault ((engine 1 [0x13]).mem.fetchable 0) = .error (.unassigned 0x13) ∧
      decode opcDefault ((engine 3 [0x10, 0x12, 0x34]).mem.fetchable 0) = .error .truncated := by decide

theorem witness_MovLitRegWritesNamedRegister : RegId.ofByte? 0 = some .ip ∧ RegId.ofByte? 9 = some .r8 := by decide

theorem witness_AddRegRegWritesWrappedSum : RegId.ofByte? 1 = some .acc ∧ RegId.ofByte? 0 = some .ip := by decide

theorem witness_InvalidRegisterIdHalts : 10 ≤ (10 : Byte).toNat ∧ (10 ≤ (2 : Byte).toNat ∨ 10 ≤ (10 : Byte).toNat) := by decide

theorem witness_InstructionsWriteOnlyTheirDestination :
    Instr.dest (.movLitReg 1 9) ≠ some .r7 ∧ Instr.wf (.movLitReg 1 9) = true ∧ Instr.movLitReg 1 9 ≠ .endExec ∧
      Instr.wf (.movLitReg 1 10) = false := by decide

/-- A step that completes, one with an invalid id, and one cut in the literal and one before the register id. -/
theorem witness_StepOfMovLitReg :
    (engine 4 [0x10, 0x12, 0x34, 9]).run = .running ∧ InstrAt opcDefault (.movLitReg 0x1234 9) (engine 4 [0x10, 0x12, 0x34, 9]) ∧
      RegId.ofByte? 9 = some .r8 ∧ InstrAt opcDefault (.movLitReg 0x1234 10) (engine 4 [0x10, 0x12, 0x34, 10]) ∧
      OpcodeAt opcDefault.movLitReg (engine 2 [0x10, 0x12]) ∧ (engine 2 [0x10, 0x12]).mem.size ≤ 0 + 2 ∧
      OpcodeAt opcDefault.movLitReg (engine 3 [0x10, 0x12, 0x34]) ∧ 0 + 2 < (engine 3 [0x10, 0x12, 0x34]).mem.size ∧
      (engine 3 [0x10, 0x12, 0x34]).mem.size ≤ 0 + 3 :=
  ⟨rfl, ⟨by decide, by decide⟩, rfl, ⟨by decide, by decide⟩, ⟨by decide, by decide⟩, by decide, ⟨by decide, by decide⟩,
    by decide, by decide⟩

theorem witness_StepOfMovLitR1AndR2 :
    InstrAt opcDefault (.movLitR1 0xBEEF) (engineAt 0x10000 0xFFFC [0x11, 0xBE, 0xEF]) ∧
      InstrAt opcDefault (.movLitR2 7) (engine 3 [0x12, 0, 7]) ∧
      OpcodeAt opcDefault.movLitR1 (engineAt 0x10000 0xFFFD [0x11, 0xAA, 0xBB]) ∧ 0xFFFE ≤ 0xFFFD + 1 ∧
      OpcodeAt opcDefault.movLitR2 (engine 2 [0x12, 0x80]) ∧ (engine 2 [0x12, 0x80]).mem.size ≤ 0 + 2 :=
  ⟨⟨by decide, by decide⟩, ⟨by decide, by decide⟩, ⟨by decide, by decide⟩, by decide, ⟨by decide, by decide⟩, by decide⟩

theorem witness_StepOfAddRegReg :
    InstrAt opcDefault (.addRegReg 0 1) (engine 3 [0x14, 0, 1]) ∧ RegId.ofByte? 0 = some .ip ∧ RegId.ofByte? 1 = some .acc ∧
      InstrAt opcDefault (.addRegReg 2 10) (engine 3 [0x14, 2, 10]) ∧
      OpcodeAt opcDefault.addRegReg (engine 1 [0x14]) ∧ (engine 1 [0x14]).mem.size ≤ 0 + 1 ∧
      OpcodeAt opcDefault.addRegReg (engine 2 [0x14, 2]) ∧ 0 + 1 < (engine 2 [0x14, 2]).mem.size ∧
      (engine 2 [0x14, 2]).mem.size ≤ 0 + 2 :=
  ⟨⟨by decide, by decide⟩, rfl, rfl, ⟨by decide, by decide⟩, ⟨by decide, by decide⟩, by decide, ⟨by decide, by decide⟩,
    by decide, by decide⟩

theorem witness_StepOfEndAndOfUnassignedOpcode :
    OpcodeAt opcDefault.endExec (engineAt 0x10000 0xFFFE [0xFF]) ∧ OpcodeAt 0x13 (engine 1 [0x13]) ∧
      opcDefault.opcodeOf 0x13 = none ∧ ((engineAt 0x10000 0xFFFF [0xFF]).reg .ip).toNat = 0xFFFF :=
  ⟨⟨by decide, by decide⟩, ⟨by decide, by decide⟩, by decide, by decide⟩

theorem witness_OpcodeFetchFailureHalts :
    (State.construct 0).run = .running ∧ (State.construct 0).mem.size ≤ ((State.construct 0).reg .ip).toNat ∧
      (engineAt 0x10000 0xFFFF [0xFF]).run = .running ∧ ((engineAt 0x10000 0xFFFF [0xFF]).reg .ip).toNat = 0xFFFF := by decide

/-- Program P5 after its first step, at the first byte the load did not write, and past the end of a memory. -/
theorem witness_RunningOffTheProgramHalts :
    (State.construct 8).load [0x11, 0xAB, 0xCD] = some (engine 8 [0x11, 0xAB, 0xCD]) ∧
      ((engine 8 [0x11, 0xAB, 0xCD]).setReg .ip 3).mem = (engine 8 [0x11, 0xAB, 0xCD]).mem ∧
      ((engine 8 [0x11, 0xAB, 0xCD]).setReg .ip 3).run = .running ∧
      ([0x11, 0xAB, 0xCD] : List Byte).length ≤ (((engine 8 [0x11, 0xAB, 0xCD]).setReg .ip 3).reg .ip).toNat ∧
      (((engine 8 [0x11, 0xAB, 0xCD]).setReg .ip 3).reg .ip).toNat < 8 ∧
      8 ≤ (((engine 8 [0x11, 0xAB, 0xCD]).setReg .ip 8).reg .ip).toNat := by decide

/-- A jump to an offset past the memory (V14), one to 0xFFFF (V44), and one to its own offset. -/
theorem witness_MovLitRegToIpIsAJump :
    InstrAt opcDefault (.movLitReg 9 0) (engine 4 [0x10, 0, 9, 0]) ∧
      (engine 4 [0x10, 0, 9, 0]).mem.size ≤ (9 : Word).toNat ∧
      InstrAt opcDefault (.movLitReg 0xFFFF 0) (engine 0x10000 [0x10, 0xFF, 0xFF, 0]) ∧
      InstrAt opcDefault (.movLitReg 0 0) (engine 4 [0x10, 0, 0, 0]) ∧ 0 = (engine 4 [0x10, 0, 0, 0]).reg .ip :=
  ⟨⟨by decide, by decide⟩, by decide, ⟨by decide, by decide⟩, ⟨by decide, by decide⟩, by decide⟩

theorem witness_IpOperandIsOffsetAfterInstruction :
    InstrAt opcDefault (.addRegReg 0 0) (engine 3 [0x14, 0, 0]) ∧ InstrAt opcDefault (.addRegReg 0 1) (engine 3 [0x14, 0, 1]) ∧
      RegId.ofByte? 1 = some .acc ∧ RegId.acc ≠ .ip ∧ InstrAt opcDefault (.addRegReg 9 0) (engine 3 [0x14, 9, 0]) ∧
      RegId.ofByte? 9 = some .r8 ∧ RegId.r8 ≠ .ip ∧ InstrAt opcDefault (.movLitReg 0x1234 0) (engine 4 [0x10, 0x12, 0x34, 0]) :=
  ⟨⟨by decide, by decide⟩, ⟨by decide, by decide⟩, rfl, by decide, ⟨by decide, by decide⟩, rfl, by decide,
    ⟨by decide, by decide⟩⟩

/-- Running engines whose step ends in each of the four ways. -/
theorem witness_StepEndsInOneOfFourWays :
    (engine 3 [0x11, 0xAB, 0xCD]).run = .running ∧ (engine 1 [0x13]).run = .running ∧ (engine 0 []).run = .running ∧
      (engine 1 [0xFF]).run = .running := by decide

theorem witness_MemoryIsConstantDuringRun :
    stepsWith opcDefault 1 (engine 1 [0xFF]) = .next (haltEntry .endOfExecution ((engine 1 [0xFF]).advance 1)) := rfl

/-- A running engine for the second clause of the statement. -/
theorem witness_StepStatusTellsWhetherRunning : (engine 1 [0xFF]).run = .running := by decide

/-- A step with a next state that runs on, and one that halts. -/
theorem witness_IpNeverWraps_HaltsArePrecise :
    stepWith opcDefault (engine 3 [0x11, 0xAB, 0xCD]) = .next ((engine 3 [0x11, 0xAB, 0xCD]).advance 3 |>.setReg .r1 0xABCD) ∧
      stepWith opcDefault (engine 1 [0x13]) = .next (haltEntry .unexpectedInstruction ((engine 1 [0x13]).advance 1)) ∧
      (haltEntry .unexpectedInstruction ((engine 1 [0x13]).advance 1)).run = .halted .unexpectedInstruction :=
  ⟨rfl, rfl, rfl⟩

theorem witness_HaltedEngineIsFinal : (haltEntry .endOfExecution (engine 1 [0xFF])).run = .halted .endOfExecution := by decide

theorem witness_StepKeepsInvariant :
    (engine 1 [0x13]).Inv opcDefault ∧
      stepWith opcDefault (engine 1 [0x13]) = .next (haltEntry .unexpectedInstruction ((engine 1 [0x13]).advance 1)) :=
  ⟨⟨rfl, trivial⟩, rfl⟩

theorem witness_RunLoopStopsAtFirstHalt :
    (engine 1 [0xFF]).run = .running ∧
      runLoop opcDefault 1 (engine 1 [0xFF]) = .halted (haltEntry .endOfExecution ((engine 1 [0xFF]).advance 1)) ∧
      runLoop opcDefault 0 (engine 1 [0xFF]) = .outOfFuel (engine 1 [0xFF]) :=
  ⟨rfl, rfl, rfl⟩

theorem witness_RunEndsOnceOrRunsForever :
    RunEndsWith opcDefault (engine 1 [0xFF]) .endOfExecution (haltEntry .endOfExecution ((engine 1 [0xFF]).advance 1)) :=
  ⟨rfl, 1, rfl, rfl⟩

theorem witness_ControlFlowIgnoresData :
    SameControl (engine 3 [0x14, 2, 3]) ((engine 3 [0x14, 2, 3]).setReg .r1 5) ∧
      stepsWith opcDefault 1 (engine 3 [0x14, 2, 3]) = .next ((engine 3 [0x14, 2, 3]).advance 3 |>.setReg .acc 0) :=
  ⟨⟨rfl, rfl, rfl⟩, rfl⟩

/-- A jump to its own offset is still running after 0x10000 steps. -/
theorem witness_NoHaltIn65536StepsMeansNever :
    stepsWith opcDefault 0x10000 (engine 4 [0x10, 0, 0, 0]) = .next (engine 4 [0x10, 0, 0, 0]) ∧
      (engine 4 [0x10, 0, 0, 0]).run = .running := by
  have once : stepWith opcDefault (engine 4 [0x10, 0, 0, 0]) = .next (engine 4 [0x10, 0, 0, 0]) := rfl
  refine ⟨?_, rfl⟩
  generalize 0x10000 = k
  induction k with
  | zero => rfl
  | succ k ih => exact stepsWith_succ_next.2 ⟨_, once, ih⟩

theorem witness_HostWritesOnlyBeforeFirstStep :
    hostCall opcDefault .status { engine := State.construct 1, phase := .started } =
      .next (.status .running, { engine := State.construct 1, phase := .started }) ∧
      HostCall.status ≠ .step ∧ ∀ fuel, HostCall.status ≠ .run fuel :=
  ⟨rfl, by decide, fun _ => by simp⟩

theorem witness_FailedLoadBlocksLaunch :
    (Session.new 1).phase ≠ .started ∧ (Session.new 1).engine.mem.size < ([1, 2] : List Byte).length := by decide

theorem witness_HostGetReadsNamedRegister : "r8" = RegId.r8.name ∧ ∀ r ∈ RegId.all, "ax" ≠ r.name := by decide

end Sys2Proof.Tests.Slice0
end

section
/-! SUPPORT. What the decoder's answers say of the bytes, and the one instruction whose destination is `ip`. -/

namespace Sys2Proof

/-! ## The decoder's answers -/

/-- Bytes that decode are an assigned opcode byte and its operands. -/
theorem decode_ok {m : OpcodeMap} {bytes rest : List Byte} {i : Instr} (h : decode m bytes = .ok (i, rest)) :
    ∃ b bs op, bytes = b :: bs ∧ m.opcodeOf b = some op ∧ decodeOperands op bs = some (i, rest) := by
  cases bytes with
  | nil => cases h
  | cons b bs =>
    cases hop : m.opcodeOf b with
    | none => simp [decode, hop] at h
    | some op =>
      cases hd : decodeOperands op bs with
      | none => simp [decode, hop, hd] at h
      | some r => exact ⟨b, bs, op, rfl, hop, hd.trans (by simpa [decode, hop, hd] using h)⟩

/-- An unassigned opcode byte is the first of the bytes (R110). -/
theorem decode_unassigned {m : OpcodeMap} {bytes : List Byte} {b : Byte}
    (h : decode m bytes = .error (.unassigned b)) : ∃ bs, bytes = b :: bs ∧ m.opcodeOf b = none := by
  cases bytes with
  | nil => cases h
  | cons c bs =>
    cases hop : m.opcodeOf c with
    | none =>
      have hc : c = b := by simpa [decode, hop] using h
      exact ⟨bs, by rw [hc], hc ▸ hop⟩
    | some op => cases hd : decodeOperands op bs <;> simp [decode, hop, hd] at h

/-- Truncated bytes are none at all, or an assigned opcode byte with too few operand bytes (R68). -/
theorem decode_truncated {m : OpcodeMap} {bytes : List Byte} (h : decode m bytes = .error .truncated) :
    bytes = [] ∨ ∃ b bs op, bytes = b :: bs ∧ m.opcodeOf b = some op ∧ decodeOperands op bs = none := by
  cases bytes with
  | nil => exact .inl rfl
  | cons b bs =>
    cases hop : m.opcodeOf b with
    | none => simp [decode, hop] at h
    | some op =>
      cases hd : decodeOperands op bs with
      | none => exact .inr ⟨b, bs, op, rfl, hop, hd⟩
      | some r => simp [decode, hop, hd] at h

/-! ## The bytes an instruction takes -/

theorem length_of_decodeOperands {op : Opcode} {bytes rest : List Byte} {i : Instr}
    (h : decodeOperands op bytes = some (i, rest)) : bytes.length + 1 = i.length + rest.length := by
  unfold decodeOperands at h
  split at h <;> cases h <;> simp [Instr.length, Instr.opcode, Opcode.length] <;> omega

theorem length_of_decode {m : OpcodeMap} {bytes rest : List Byte} {i : Instr}
    (h : decode m bytes = .ok (i, rest)) : bytes.length = i.length + rest.length := by
  obtain ⟨b, bs, op, rfl, -, hd⟩ := decode_ok h
  exact length_of_decodeOperands hd

/-! ## The jump -/

theorem RegId.ofByte?_eq_ip {id : Byte} : RegId.ofByte? id = some .ip ↔ id = 0 := by
  revert id
  decide

/-- Only MOV_LIT_REG with id 0 has `ip` as its destination (R112, R113). -/
theorem Instr.eq_jump_of_dest_ip {i : Instr} (h : i.dest = some .ip) : ∃ target, i = .movLitReg target 0 := by
  cases i with
  | movLitReg lit rd => exact ⟨lit, by rw [RegId.ofByte?_eq_ip.1 h]⟩
  | movLitR1 lit => cases h
  | movLitR2 lit => cases h
  | addRegReg ra rb => cases h
  | endExec => cases h

end Sys2Proof
end

section
/-! SUPPORT. The fetches of a step follow the decoder on the bytes that can be fetched from `ip`
(R56, R84, R121), so `ip` never passes 0xFFFF while they last (R20). -/

namespace Sys2Proof.Machine

/-! ## The bytes that can be fetched -/

theorem Memory.drop_fetchable (m : Memory) (a n : Nat) : (m.fetchable a).drop n = m.fetchable (a + n) := by
  induction n generalizing a with
  | zero => rfl
  | succ n ih =>
    by_cases h : a < m.fetchEnd
    · rw [Memory.fetchable_cons h, List.drop_succ_cons, ih, Nat.add_assoc, Nat.add_comm 1]
    · rw [Memory.fetchable_nil (a := a) (by omega), Memory.fetchable_nil (by omega), List.drop_nil]

/-- Moving past bytes that can be fetched does not wrap `ip` (R20). -/
theorem State.toNat_ip_advance_of_fetchable {s : State} {n : Nat}
    (h : n ≤ (s.mem.fetchable (s.reg .ip).toNat).length) :
    ((s.advance n).reg .ip).toNat = (s.reg .ip).toNat + n := by
  apply State.toNat_ip_advance
  rw [Memory.length_fetchable] at h
  have hend : s.mem.fetchEnd ≤ Config.maxAddr := Nat.min_le_right _ _
  have hip : (s.reg .ip).toNat ≤ Config.maxAddr := Nat.le_of_lt_succ (s.reg .ip).isLt
  omega

theorem State.fetchable_advance {s : State} {n : Nat} {bytes : List Byte}
    (h : s.mem.fetchable (s.reg .ip).toNat = bytes) (hn : n ≤ bytes.length) :
    (s.advance n).mem.fetchable ((s.advance n).reg .ip).toNat = bytes.drop n := by
  subst h
  rw [State.toNat_ip_advance_of_fetchable hn, State.advance_mem, Memory.drop_fetchable]

/-! ## One fetch -/

theorem fetchU8_of_cons {s : State} {b : Byte} {rest : List Byte}
    (h : s.mem.fetchable (s.reg .ip).toNat = b :: rest) : fetchU8 s = .ok b (s.advance 1) := by
  have hlt : (s.reg .ip).toNat < s.mem.fetchEnd := by
    have := Memory.length_fetchable s.mem (s.reg .ip).toNat
    simp only [h, List.length_cons] at this
    omega
  rw [Memory.fetchable_cons hlt] at h
  rw [fetchU8_eq, if_pos hlt, (List.cons.inj h).1]

theorem fetchU8_of_nil {s : State} (h : s.mem.fetchable (s.reg .ip).toNat = []) :
    fetchU8 s = .halt .badMemoryAccess s := by
  have := Memory.length_fetchable s.mem (s.reg .ip).toNat
  rw [h, List.length_nil] at this
  rw [fetchU8_eq, if_neg (by omega)]

theorem fetchU16_of_cons_cons {s : State} {hi lo : Byte} {rest : List Byte}
    (h : s.mem.fetchable (s.reg .ip).toNat = hi :: lo :: rest) :
    fetchU16 s = .ok (joinBytes hi lo) (s.advance 2) := by
  have hlt : (s.reg .ip).toNat + 1 < s.mem.fetchEnd := by
    have := Memory.length_fetchable s.mem (s.reg .ip).toNat
    simp only [h, List.length_cons] at this
    omega
  rw [Memory.fetchable_cons (by omega), Memory.fetchable_cons hlt] at h
  obtain ⟨hhi, h⟩ := List.cons.inj h
  rw [fetchU16_eq, if_pos hlt, hhi, (List.cons.inj h).1]

theorem fetchU16_of_length_lt {s : State} (h : (s.mem.fetchable (s.reg .ip).toNat).length < 2) :
    fetchU16 s = .halt .badMemoryAccess s := by
  rw [Memory.length_fetchable] at h
  rw [fetchU16_eq, if_neg (by omega)]

/-! ## The fetches of one instruction -/

/-- How many operand bytes are fetched before the fetch that fails (R121): `fetchedBeforeCut` without the
opcode byte. -/
def operandsBeforeCut : Opcode → List Byte → Nat
  | .movLitReg, bytes => if bytes.length < 2 then 0 else 2
  | .addRegReg, bytes => if bytes.length < 1 then 0 else 1
  | _, _ => 0

theorem fetchedBeforeCut_cons {m : OpcodeMap} {b : Byte} {op : Opcode} (h : m.opcodeOf b = some op)
    (rest : List Byte) : fetchedBeforeCut m (b :: rest) = 1 + operandsBeforeCut op rest := by
  cases op <;> simp only [fetchedBeforeCut, h, operandsBeforeCut] <;> split <;> rfl

/-- Operands that decode are fetched one after another (R86). -/
theorem fetchOperands_of_decode {op : Opcode} {s : State} {i : Instr} {rest : List Byte}
    (h : decodeOperands op (s.mem.fetchable (s.reg .ip).toNat) = some (i, rest)) :
    fetchOperands op s = .ok i (s.advance (i.length - 1)) := by
  generalize hs : s.mem.fetchable (s.reg .ip).toNat = bytes at h
  cases op with
  | movLitReg =>
    match bytes, h with
    | hi :: lo :: rd :: _, rfl =>
      have hrd : fetchU8 (s.advance 2) = .ok rd ((s.advance 2).advance 1) :=
        fetchU8_of_cons (State.fetchable_advance hs (by simp))
      rw [State.advance_advance] at hrd
      simp [fetchOperands, fetchFormatLR, fetchU16_of_cons_cons hs, hrd, Instr.length, Instr.opcode, Opcode.length]
  | movLitR1 | movLitR2 =>
    match bytes, h with
    | hi :: lo :: _, rfl =>
      simp [fetchOperands, fetchFormatL, fetchU16_of_cons_cons hs, Instr.length, Instr.opcode, Opcode.length]
  | addRegReg =>
    match bytes, h with
    | ra :: rb :: _, rfl =>
      have hrb : fetchU8 (s.advance 1) = .ok rb ((s.advance 1).advance 1) :=
        fetchU8_of_cons (State.fetchable_advance hs (by simp))
      rw [State.advance_advance] at hrb
      simp [fetchOperands, fetchFormatRR, fetchU8_of_cons hs, hrb, Instr.length, Instr.opcode, Opcode.length]
  | endExec =>
    cases h
    exact congrArg (Res.ok _) (State.advance_zero s).symm

/-- Operands cut short halt at the fetch that fails (R86, R121). -/
theorem fetchOperands_of_cut {op : Opcode} {s : State}
    (h : decodeOperands op (s.mem.fetchable (s.reg .ip).toNat) = none) :
    fetchOperands op s =
      .halt .badMemoryAccess (s.advance (operandsBeforeCut op (s.mem.fetchable (s.reg .ip).toNat))) := by
  generalize hs : s.mem.fetchable (s.reg .ip).toNat = bytes at h ⊢
  cases op with
  | movLitReg =>
    match bytes, h with
    | [], _ | [_], _ =>
      have hlit := fetchU16_of_length_lt (s := s) (by simp [hs])
      simp [fetchOperands, fetchFormatLR, hlit, operandsBeforeCut]
    | [hi, lo], _ =>
      have hrd : fetchU8 (s.advance 2) = .halt .badMemoryAccess (s.advance 2) :=
        fetchU8_of_nil (State.fetchable_advance hs (by simp))
      simp [fetchOperands, fetchFormatLR, fetchU16_of_cons_cons hs, hrd, operandsBeforeCut]
  | movLitR1 | movLitR2 =>
    match bytes, h with
    | [], _ | [_], _ =>
      have hlit := fetchU16_of_length_lt (s := s) (by simp [hs])
      simp [fetchOperands, fetchFormatL, hlit, operandsBeforeCut]
  | addRegReg =>
    match bytes, h with
    | [], _ => simp [fetchOperands, fetchFormatRR, fetchU8_of_nil hs, operandsBeforeCut]
    | [ra], _ =>
      have hrb : fetchU8 (s.advance 1) = .halt .badMemoryAccess (s.advance 1) :=
        fetchU8_of_nil (State.fetchable_advance hs (by simp))
      simp [fetchOperands, fetchFormatRR, fetchU8_of_cons hs, hrb, operandsBeforeCut]
  | endExec => cases h

/-- An instruction that decodes is fetched whole, and `ip` moves past it (R81, R84). -/
theorem fetchInstr_of_decode_ok {m : OpcodeMap} {s : State} {i : Instr} {rest : List Byte}
    (h : decode m (s.mem.fetchable (s.reg .ip).toNat) = .ok (i, rest)) :
    fetchInstr m s = .ok i (s.advance i.length) := by
  obtain ⟨b, bs, op, hs, hop, hd⟩ := decode_ok h
  have hbs : (s.advance 1).mem.fetchable ((s.advance 1).reg .ip).toNat = bs := State.fetchable_advance hs (by simp)
  have hops := fetchOperands_of_decode (s := s.advance 1) (hbs ▸ hd)
  rw [State.advance_advance, Nat.add_sub_cancel' (Instr.length_bounds i).1] at hops
  simp [fetchInstr, fetchU8_of_cons hs, hop, hops]

/-- An unassigned opcode byte halts before any operand is fetched (R110). -/
theorem fetchInstr_of_decode_unassigned {m : OpcodeMap} {s : State} {b : Byte}
    (h : decode m (s.mem.fetchable (s.reg .ip).toNat) = .error (.unassigned b)) :
    fetchInstr m s = .halt .unexpectedInstruction (s.advance 1) := by
  obtain ⟨bs, hs, hop⟩ := decode_unassigned h
  simp [fetchInstr, fetchU8_of_cons hs, hop]

/-- An instruction cut short halts at the fetch that fails (R68, R121). -/
theorem fetchInstr_of_decode_truncated {m : OpcodeMap} {s : State}
    (h : decode m (s.mem.fetchable (s.reg .ip).toNat) = .error .truncated) :
    fetchInstr m s =
      .halt .badMemoryAccess (s.advance (fetchedBeforeCut m (s.mem.fetchable (s.reg .ip).toNat))) := by
  rcases decode_truncated h with hs | ⟨b, bs, op, hs, hop, hd⟩
  · simp [fetchInstr, fetchU8_of_nil hs, hs, fetchedBeforeCut]
  · have hbs : (s.advance 1).mem.fetchable ((s.advance 1).reg .ip).toNat = bs :=
      State.fetchable_advance hs (by simp)
    have hops := fetchOperands_of_cut (s := s.advance 1) (hbs ▸ hd)
    rw [hbs, State.advance_advance, ← fetchedBeforeCut_cons hop, ← hs] at hops
    simp [fetchInstr, fetchU8_of_cons hs, hop, hops]

/-! ## How far the fetches move `ip` -/

theorem fetchedBeforeCut_le (m : OpcodeMap) (bytes : List Byte) :
    fetchedBeforeCut m bytes ≤ 3 ∧ fetchedBeforeCut m bytes ≤ bytes.length := by
  cases bytes with
  | nil => simp [fetchedBeforeCut]
  | cons b rest =>
    simp only [fetchedBeforeCut, List.length_cons]
    repeat' split
    all_goals omega

/-- What a step that has a next state was, read off the bytes at `ip`: the effect of the instruction they
decode to, or a halt after at most three of them were fetched. -/
theorem stepWith_cases_decode {m : OpcodeMap} {s t : State} (h : stepWith m s = .next t) :
    (∃ i rest, decode m (s.mem.fetchable (s.reg .ip).toNat) = .ok (i, rest) ∧
        exec i (s.advance i.length) = .next t) ∨
      ∃ r n, n ≤ 3 ∧ n ≤ (s.mem.fetchable (s.reg .ip).toNat).length ∧ t = haltEntry r (s.advance n) := by
  obtain ⟨hrun, -⟩ := stepWith_cases h
  cases hd : decode m (s.mem.fetchable (s.reg .ip).toNat) with
  | ok d =>
    obtain ⟨i, rest⟩ := d
    rw [stepWith_fetch_ok hrun (fetchInstr_of_decode_ok hd)] at h
    exact .inl ⟨i, rest, rfl, h⟩
  | error e =>
    right
    cases e with
    | unassigned b =>
      rw [stepWith_fetch_halt hrun (fetchInstr_of_decode_unassigned hd)] at h
      cases h
      obtain ⟨bs, hs, -⟩ := decode_unassigned hd
      exact ⟨_, 1, by omega, by simp [hs], rfl⟩
    | truncated =>
      rw [stepWith_fetch_halt hrun (fetchInstr_of_decode_truncated hd)] at h
      cases h
      obtain ⟨hthree, hlen⟩ := fetchedBeforeCut_le m (s.mem.fetchable (s.reg .ip).toNat)
      exact ⟨_, _, hthree, hlen, rfl⟩

/-! ## Where a step leaves `ip` -/

/-- An instruction leaves the advanced `ip`, unless it is the jump, which puts its literal there (R112). -/
theorem exec_ip {i : Instr} {s t : State} (h : exec i s = .next t) :
    t.reg .ip = s.reg .ip ∨ ∃ target, i = .movLitReg target 0 ∧ t.reg .ip = target := by
  rcases exec_cases i s with ⟨r, v, -, hdest, he⟩ | ⟨-, he⟩ | ⟨-, he⟩
  · by_cases hr : r = .ip
    · obtain ⟨target, rfl⟩ := Instr.eq_jump_of_dest_ip (hr ▸ hdest)
      have hjump : exec (.movLitReg target 0) s = .next (s.setReg .ip target) := execMovLitReg_some rfl target s
      cases hjump.symm.trans h
      exact .inr ⟨target, rfl, by simp⟩
    · cases he.symm.trans h
      exact .inl (by simp [Ne.symm hr])
  · cases he.symm.trans h
    exact .inl (haltEntry_reg _ _ _)
  · cases he.symm.trans h
    exact .inl (haltEntry_reg _ _ _)

/-- Settles O36: the fetches move `ip` past bytes below 0xFFFF only, and after them only the jump writes it. -/
theorem ipNeverWraps : Obligations.IpNeverWraps := by
  intro m s t h
  rcases stepWith_cases_decode h with ⟨i, rest, hd, he⟩ | ⟨r, n, hthree, hlen, rfl⟩
  · rcases exec_ip he with hip | ⟨target, rfl, hip⟩
    · left
      have hfour : i.length ≤ 4 := (Instr.length_bounds i).2
      have hadv := State.toNat_ip_advance_of_fetchable (s := s) (n := i.length) (by rw [length_of_decode hd]; omega)
      rw [hip, hadv]
      omega
    · exact .inr ⟨target, rest, hd, hip⟩
  · left
    rw [haltEntry_reg, State.toNat_ip_advance_of_fetchable hlen]
    omega

end Sys2Proof.Machine
end

section
/-! SUPPORT. The registers of a new engine (R32, R33), and set and get by name (R26). -/

namespace Sys2Proof.Machine

theorem Memory.getU8_new {n o : Nat} (h : o < n) : (Memory.new n).getU8 o = some 0 := Memory.getU8_lt h

/-- The zeroed Register File and a new Memory of 20 bytes are the same bank (R24, R32). -/
theorem RegFile.bank_zero : RegFile.zero.bank = Memory.new 20 := by decide

/-- Settles O1: construction gives the zeroed Register File and a running engine, whatever the memory size. -/
theorem newEngineRegistersZeroAndRunning : Obligations.NewEngineRegistersZeroAndRunning := by
  intro n
  rw [State.construct_regs, RegFile.bank_zero]
  exact ⟨RegFile.get_zero, State.construct_run n, rfl, fun o ho => Memory.getU8_new ho⟩

/-- Settles O10: a read after a write is decided by the register, and two names of one register are equal. -/
theorem setThenGetRegisterByName : Obligations.SetThenGetRegisterByName := by
  intro f v name other r q hr hq
  have hname := RegId.name_of_ofName? hr
  have hother := RegId.name_of_ofName? hq
  refine ⟨by simp, fun hne => ?_⟩
  have hqr : q ≠ r := by
    rintro rfl
    exact hne (hname.symm.trans hother)
  rw [RegFile.get_set, if_neg hqr]

end Sys2Proof.Machine
end

section
/-! SUPPORT. The bounds of the byte and 16-bit memory accesses (R55). -/

namespace Sys2Proof.Machine

theorem Memory.isSome_getU8_iff {m : Memory} {o : Nat} : (m.getU8 o).isSome ↔ o < m.size :=
  Option.isSome_ite'.trans Nat.not_le

theorem Memory.isSome_setU8_iff {m : Memory} {o : Nat} {b : Byte} : (m.setU8 o b).isSome ↔ o < m.size :=
  Option.isSome_ite'.trans Nat.not_le

theorem Memory.isSome_getU16_iff {m : Memory} {o : Nat} : (m.getU16 o).isSome ↔ o + 1 < m.size :=
  Option.isSome_ite'.trans Nat.not_le

theorem Memory.isSome_setU16_iff {m : Memory} {o : Nat} {v : Word} : (m.setU16 o v).isSome ↔ o + 1 < m.size :=
  Option.isSome_ite'.trans Nat.not_le

/-- Settles O6: a read and a write of one width succeed on the same offsets, and fail on all the others. -/
theorem memoryAccessBounds : Obligations.MemoryAccessBounds := by
  intro m o b v
  simp only [← Option.not_isSome_iff_eq_none, Memory.isSome_getU8_iff, Memory.isSome_setU8_iff,
    Memory.isSome_getU16_iff, Memory.isSome_setU16_iff, Nat.not_lt]
  exact ⟨fun h => ⟨h, h⟩, fun h => ⟨h, h⟩, fun h => ⟨h, h⟩, fun h => ⟨h, h⟩⟩

end Sys2Proof.Machine
end

section
/-! SUPPORT. The four ways a step of a running engine ends (R68), each from the bytes that give it. -/

namespace Sys2Proof.Machine

/-! ## The effect of a decoded instruction -/

theorem exec_of_wf {i : Instr} (hwf : i.wf = true) (hend : i ≠ .endExec) (s : State) :
    ∃ r v, exec i s = .next (s.setReg r v) := by
  rcases exec_cases i s with ⟨r, v, -, -, he⟩ | ⟨hi, -⟩ | ⟨hbad, -⟩
  · exact ⟨r, v, he⟩
  · exact absurd hi hend
  · rw [hwf] at hbad
    cases hbad

theorem exec_of_not_wf {i : Instr} (hwf : i.wf = false) (s : State) :
    exec i s = .next (haltEntry .badMemoryAccess s) := by
  rcases exec_cases i s with ⟨-, -, hok, -⟩ | ⟨rfl, -⟩ | ⟨-, he⟩
  · rw [hwf] at hok
    cases hok
  · cases hwf
  · exact he

/-! ## Halts -/

theorem length_le_of_decode {m : OpcodeMap} {bytes rest : List Byte} {i : Instr}
    (h : decode m bytes = .ok (i, rest)) : i.length ≤ bytes.length :=
  (Nat.le_add_right _ _).trans_eq (length_of_decode h).symm

/-- Entering `halted` after fetches that succeeded has moved `ip` past their bytes and changed nothing else. -/
theorem stepHalts_of_fetched {m : OpcodeMap} {s : State} {reason : HaltReason} {n : Nat}
    (hn : n ≤ (s.mem.fetchable (s.reg .ip).toNat).length)
    (h : stepWith m s = .next (haltEntry reason (s.advance n))) :
    StepHalts m s reason ((s.reg .ip).toNat + n) :=
  ⟨_, h, rfl, State.toNat_ip_advance_of_fetchable hn, fun q hq => by simp [hq], rfl⟩

/-- Bytes that give a halt make the step of a running engine end in it (R119, R121). -/
theorem stepHalts_of_haltsFrom {m : OpcodeMap} {s : State} {reason : HaltReason} {p : Nat} (hrun : s.run = .running)
    (h : HaltsFrom m s.mem (s.reg .ip).toNat reason p) : StepHalts m s reason p := by
  cases reason with
  | endOfExecution =>
    obtain ⟨rest, hd, rfl⟩ := h
    exact stepHalts_of_fetched (length_le_of_decode hd) (stepWith_fetch_ok hrun (fetchInstr_of_decode_ok hd))
  | unexpectedInstruction =>
    obtain ⟨b, hd, rfl⟩ := h
    obtain ⟨bs, hs, -⟩ := decode_unassigned hd
    exact stepHalts_of_fetched (by simp [hs]) (stepWith_fetch_halt hrun (fetchInstr_of_decode_unassigned hd))
  | badMemoryAccess =>
    rcases h with ⟨hd, rfl⟩ | ⟨i, rest, hd, hwf, rfl⟩
    · exact stepHalts_of_fetched (fetchedBeforeCut_le m _).2
        (stepWith_fetch_halt hrun (fetchInstr_of_decode_truncated hd))
    · exact stepHalts_of_fetched (length_le_of_decode hd)
        ((stepWith_fetch_ok hrun (fetchInstr_of_decode_ok hd)).trans (exec_of_not_wf hwf _))

/-! ## The four ways -/

/-- Whatever can be fetched gives a halt, or is an instruction other than END whose ids all name registers. -/
theorem haltsFrom_or_decode_wf (m : OpcodeMap) (mem : Memory) (a : Nat) :
    (∃ reason p, HaltsFrom m mem a reason p) ∨
      ∃ i rest, decode m (mem.fetchable a) = .ok (i, rest) ∧ i.wf = true ∧ i ≠ .endExec := by
  cases hd : decode m (mem.fetchable a) with
  | error e =>
    left
    cases e with
    | unassigned b => exact ⟨.unexpectedInstruction, _, b, hd, rfl⟩
    | truncated => exact ⟨.badMemoryAccess, _, .inl ⟨hd, rfl⟩⟩
  | ok d =>
    obtain ⟨i, rest⟩ := d
    by_cases hend : i = .endExec
    · subst hend
      exact .inl ⟨.endOfExecution, _, rest, hd, rfl⟩
    · cases hwf : i.wf with
      | false => exact .inl ⟨.badMemoryAccess, _, .inr ⟨i, rest, hd, hwf, rfl⟩⟩
      | true => exact .inr ⟨i, rest, rfl, hwf, hend⟩

/-- Settles O38: the bytes that can be fetched give a halt, which the step then takes, or an instruction whose
effect leaves the engine running. -/
theorem stepEndsInOneOfFourWays : Obligations.StepEndsInOneOfFourWays := by
  intro m s hrun
  rcases haltsFrom_or_decode_wf m s.mem (s.reg .ip).toNat with ⟨reason, p, hfrom⟩ | ⟨i, rest, hd, hwf, hend⟩
  · obtain ⟨t, hstep, hhalt, rfl, -, -⟩ := stepHalts_of_haltsFrom hrun hfrom
    exact ⟨t, hstep, by simpa only [hhalt] using hfrom⟩
  · obtain ⟨r, v, he⟩ := exec_of_wf hwf hend (s.advance i.length)
    have hgoes : ((s.advance i.length).setReg r v).run = .running := hrun
    refine ⟨_, (stepWith_fetch_ok hrun (fetchInstr_of_decode_ok hd)).trans he, ?_⟩
    simpa only [hgoes] using ⟨i, rest, hd, hwf, hend, he⟩

end Sys2Proof.Machine
end

section
/-! SUPPORT. The step as the host calls it (R78), and the end of an engine that has halted (R90). -/

namespace Sys2Proof.Machine

/-! ## The host's step -/

theorem statusOf_eq_goesOn {s : State} : statusOf s = .goesOn ↔ s.run = .running := by
  cases hrun : s.run <;> simp [statusOf, hrun]

theorem hostStep_of_next {m : OpcodeMap} {s t : State} (h : stepWith m s = .next t) :
    hostStep m s = (t, statusOf t) := by simp [hostStep, h]

theorem hostStep_halted {m : OpcodeMap} {s : State} {reason : HaltReason} (h : s.run = .halted reason) :
    hostStep m s = (s, .halted) := by simp [hostStep, stepWith_halted h]

/-- Settles O40: a running engine makes its transition, which the status describes; a halted one stays halted. -/
theorem stepStatusTellsWhetherRunning : Obligations.StepStatusTellsWhetherRunning := by
  intro m s
  cases hrun : s.run with
  | running =>
    obtain ⟨t, hstep⟩ := stepWith_running (m := m) hrun
    rw [hostStep_of_next hstep]
    exact ⟨statusOf_eq_goesOn, fun _ => hstep⟩
  | halted reason =>
    rw [hostStep_halted hrun]
    simp [hrun]

/-! ## Steps of a halted engine -/

theorem stepsWith_succ_halted {m : OpcodeMap} {s : State} {reason : HaltReason} (h : s.run = .halted reason)
    (k : Nat) : stepsWith m (k + 1) s = .fault (.engineHalted reason) := by
  simp [stepsWith, stepWith_halted h]

/-- Only no step at all leads on from a halted engine. -/
theorem stepsWith_halted_next {m : OpcodeMap} {k : Nat} {s t : State} {reason : HaltReason}
    (h : s.run = .halted reason) : stepsWith m k s = .next t ↔ k = 0 ∧ s = t := by
  cases k with
  | zero => simp [stepsWith]
  | succ k => simp [stepsWith_succ_halted h]

/-- Settles O39: the fault of the first step is the answer to any positive number of them. -/
theorem haltedEngineIsFinal : Obligations.HaltedEngineIsFinal :=
  fun _ _ _ h => ⟨stepWith_halted h, hostStep_halted h, stepsWith_succ_halted h⟩

end Sys2Proof.Machine
end

section
/-! SUPPORT. Halts are precise (R89, R121). -/

namespace Sys2Proof.Machine

/-- Settles O37: a halted next state is explained by the bytes at the old `ip`, and those bytes fix the whole
halting step. -/
theorem haltsArePrecise : Obligations.HaltsArePrecise := by
  intro m s t reason hstep hhalt
  obtain ⟨hrun, -⟩ := stepWith_cases hstep
  have hfrom : HaltsFrom m s.mem (s.reg .ip).toNat reason (t.reg .ip).toNat := by
    obtain ⟨u, hu, hway⟩ := stepEndsInOneOfFourWays m s hrun
    cases hstep.symm.trans hu
    simpa only [hhalt] using hway
  obtain ⟨u, hu, -, -, hframe, hmem⟩ := stepHalts_of_haltsFrom hrun hfrom
  cases hstep.symm.trans hu
  exact ⟨hmem, hframe, hfrom⟩

end Sys2Proof.Machine
end

section
/-! SUPPORT. The run loop under fuel (R79, R92), and how a run ends (R93). -/

namespace Sys2Proof.Machine

/-! ## The first step of a run -/

theorem stepsWith_succ_of_next {m : OpcodeMap} {s u : State} (h : stepWith m s = .next u) (k : Nat) :
    stepsWith m (k + 1) s = stepsWith m k u := by simp [stepsWith, h]

theorem runLoop_succ_of_running {m : OpcodeMap} {s u : State} (h : stepWith m s = .next u)
    (hu : u.run = .running) (fuel : Nat) : runLoop m (fuel + 1) s = runLoop m fuel u := by
  simp [runLoop, hostStep_of_next h, statusOf, hu]

theorem runLoop_succ_of_halted {m : OpcodeMap} {s u : State} {reason : HaltReason} (h : stepWith m s = .next u)
    (hu : u.run = .halted reason) (fuel : Nat) : runLoop m (fuel + 1) s = .halted u := by
  simp [runLoop, hostStep_of_next h, statusOf, hu]

/-! ## Halting within the fuel -/

/-- Some number of steps within the fuel leads from `s` to the halted state `t`. -/
def HaltsWithin (m : OpcodeMap) (fuel : Nat) (s t : State) : Prop :=
  ∃ k reason, k ≤ fuel ∧ stepsWith m k s = .next t ∧ t.run = .halted reason

theorem not_haltsWithin_zero {m : OpcodeMap} {s t : State} (hs : s.run = .running) : ¬ HaltsWithin m 0 s t := by
  rintro ⟨k, reason, hk, h, ht⟩
  cases Nat.le_zero.1 hk
  cases h
  rw [hs] at ht
  cases ht

/-- A running engine halts only after its first step. -/
theorem haltsWithin_succ {m : OpcodeMap} {fuel : Nat} {s u t : State} (hs : s.run = .running)
    (h : stepWith m s = .next u) : HaltsWithin m (fuel + 1) s t ↔ HaltsWithin m fuel u t := by
  constructor
  · rintro ⟨k, reason, hk, hst, ht⟩
    cases k with
    | zero => exact absurd ⟨0, reason, le_rfl, hst, ht⟩ (not_haltsWithin_zero hs)
    | succ k => exact ⟨k, reason, Nat.le_of_succ_le_succ hk, (stepsWith_succ_of_next h k).symm.trans hst, ht⟩
  · rintro ⟨k, reason, hk, hut, ht⟩
    exact ⟨k + 1, reason, Nat.succ_le_succ hk, (stepsWith_succ_of_next h k).trans hut, ht⟩

theorem haltsWithin_of_halted {m : OpcodeMap} {fuel : Nat} {s t : State} {reason : HaltReason}
    (hs : s.run = .halted reason) : HaltsWithin m fuel s t ↔ s = t := by
  constructor
  · rintro ⟨k, -, -, h, -⟩
    exact ((stepsWith_halted_next hs).1 h).2
  · rintro rfl
    exact ⟨0, reason, Nat.zero_le _, rfl, hs⟩

/-! ## How the loop ends -/

theorem runLoop_eq_halted {m : OpcodeMap} {fuel : Nat} {s t : State} (hs : s.run = .running) :
    runLoop m fuel s = .halted t ↔ HaltsWithin m fuel s t := by
  induction fuel generalizing s with
  | zero => simp [runLoop, not_haltsWithin_zero hs]
  | succ fuel ih =>
    obtain ⟨u, hu⟩ := stepWith_running (m := m) hs
    rw [haltsWithin_succ hs hu]
    cases hrun : u.run with
    | running => rw [runLoop_succ_of_running hu hrun, ih hrun]
    | halted reason => rw [runLoop_succ_of_halted hu hrun, haltsWithin_of_halted hrun, RunEnd.halted.injEq]

theorem runLoop_eq_outOfFuel {m : OpcodeMap} {fuel : Nat} {s t : State} (hs : s.run = .running) :
    runLoop m fuel s = .outOfFuel t ↔ stepsWith m fuel s = .next t ∧ t.run = .running := by
  induction fuel generalizing s with
  | zero =>
    simp only [runLoop, stepsWith, RunEnd.outOfFuel.injEq, Host.Outcome.next.injEq]
    exact ⟨fun h => ⟨h, h ▸ hs⟩, And.left⟩
  | succ fuel ih =>
    obtain ⟨u, hu⟩ := stepWith_running (m := m) hs
    rw [stepsWith_succ_of_next hu]
    cases hrun : u.run with
    | running => rw [runLoop_succ_of_running hu hrun, ih hrun]
    | halted reason =>
      rw [runLoop_succ_of_halted hu hrun, stepsWith_halted_next hrun]
      constructor
      · intro h
        cases h
      · rintro ⟨⟨-, rfl⟩, ht⟩
        rw [hrun] at ht
        cases ht

/-- Settles O43: by induction on the fuel, the loop and the steps take the same first step. -/
theorem runLoopStopsAtFirstHalt : Obligations.RunLoopStopsAtFirstHalt :=
  fun _ _ _ _ hs => ⟨runLoop_eq_halted hs, runLoop_eq_outOfFuel hs⟩

/-! ## The end of a run -/

theorem runEndsWith_of_runLoop {m : OpcodeMap} {fuel : Nat} {s t : State} (hs : s.run = .running)
    (h : runLoop m fuel s = .halted t) : ∃ reason, RunEndsWith m s reason t := by
  obtain ⟨k, reason, -, hst, ht⟩ := (runLoop_eq_halted hs).1 h
  exact ⟨reason, hs, k, hst, ht⟩

/-- A run that ends is the run loop with enough fuel. -/
theorem runLoop_of_runEndsWith {m : OpcodeMap} {s t : State} {reason : HaltReason} (h : RunEndsWith m s reason t) :
    t.run = .halted reason ∧ ∃ k, ∀ fuel, k ≤ fuel → runLoop m fuel s = .halted t := by
  obtain ⟨hs, k, hst, ht⟩ := h
  exact ⟨ht, k, fun fuel hk => (runLoop_eq_halted hs).2 ⟨k, reason, hk, hst, ht⟩⟩

theorem runsForever_iff_runLoop {m : OpcodeMap} {s : State} (hs : s.run = .running) :
    RunsForever m s ↔ ∀ fuel, ∃ t, runLoop m fuel s = .outOfFuel t := by
  simp only [RunsForever, runLoop_eq_outOfFuel hs]

/-- Settles O44: the run loop is a function of the fuel. It halts for some fuel, or is out of fuel for every one,
and two ends of one run are its answer for one fuel. -/
theorem runEndsOnceOrRunsForever : Obligations.RunEndsOnceOrRunsForever := by
  intro m s hs
  rw [runsForever_iff_runLoop hs]
  refine ⟨?_, ?_, ?_⟩
  · by_cases hend : ∃ fuel t, runLoop m fuel s = .halted t
    · obtain ⟨fuel, t, h⟩ := hend
      obtain ⟨reason, h⟩ := runEndsWith_of_runLoop hs h
      exact .inl ⟨reason, t, h⟩
    · refine .inr fun fuel => ?_
      cases h : runLoop m fuel s with
      | halted t => exact absurd ⟨fuel, t, h⟩ hend
      | outOfFuel t => exact ⟨t, rfl⟩
  · intro reason reason' t t' h h'
    obtain ⟨ht, k, hk⟩ := runLoop_of_runEndsWith h
    obtain ⟨ht', k', hk'⟩ := runLoop_of_runEndsWith h'
    cases (hk (max k k') (le_max_left _ _)).symm.trans (hk' _ (le_max_right _ _))
    cases ht.symm.trans ht'
    exact ⟨rfl, rfl⟩
  · intro reason t h hforever
    obtain ⟨-, k, hk⟩ := runLoop_of_runEndsWith h
    obtain ⟨u, hu⟩ := hforever k
    cases (hk k le_rfl).symm.trans hu

end Sys2Proof.Machine
end

section
/-! SUPPORT. An instruction that stands at `ip` is the one the step executes (R84), and `ip` as an operand of it
(R87). -/

namespace Sys2Proof

/-- Under an injective assignment the decoder reads an encoded instruction back (R56, R65). -/
theorem decode_encode_append {m : OpcodeMap} (hm : m.wf = true) (i : Instr) (rest : List Byte) :
    decode m (encode m i ++ rest) = .ok (i, rest) := by
  cases i <;> simp [decode, encode, decodeOperands, OpcodeMap.opcodeOf_byteOf hm]

end Sys2Proof

namespace Sys2Proof.Machine

/-! ## The instruction at `ip` -/

theorem InstrAt.decode_fetchable {m : OpcodeMap} {i : Instr} {s : State} (hm : m.wf = true) (h : InstrAt m i s) :
    ∃ rest, decode m (s.mem.fetchable (s.reg .ip).toNat) = .ok (i, rest) := by
  obtain ⟨hread, hend⟩ := h
  rw [Memory.fetchable_of_readBytes hread hend]
  exact ⟨_, decode_encode_append hm i _⟩

theorem InstrAt.stepWith_eq {m : OpcodeMap} {i : Instr} {s : State} (hm : m.wf = true) (hrun : s.run = .running)
    (h : InstrAt m i s) : stepWith m s = exec i (s.advance i.length) := by
  obtain ⟨rest, hd⟩ := h.decode_fetchable hm
  exact stepWith_fetch_ok hrun (fetchInstr_of_decode_ok hd)

/-- The step of ADD_REG_REG reads both registers after its three bytes are fetched (R106). -/
theorem InstrAt.stepWrites_addRegReg {m : OpcodeMap} {s : State} {ra rb : Byte} {p q : RegId} (hm : m.wf = true)
    (hrun : s.run = .running) (hp : RegId.ofByte? ra = some p) (hq : RegId.ofByte? rb = some q)
    (h : InstrAt m (.addRegReg ra rb) s) :
    StepWrites m s .acc ((s.advance 3).reg p + (s.advance 3).reg q) ((s.reg .ip).toNat + 3) := by
  have hstep : stepWith m s = .next ((s.advance 3).setReg .acc ((s.advance 3).reg p + (s.advance 3).reg q)) :=
    (h.stepWith_eq hm hrun).trans (execAddRegReg_some hp hq _)
  exact ⟨_, hstep, hrun, by simp, fun _ => State.toNat_ip_advance s 3 h.2,
    fun r hacc hip => by simp [hacc, hip], rfl⟩

/-- Settles O35: ADD_REG_REG reads `ip` three bytes on, and the write of MOV_LIT_REG replaces the advanced `ip`. -/
theorem ipOperandIsOffsetAfterInstruction : Obligations.IpOperandIsOffsetAfterInstruction := by
  intro m s hm hrun
  have hip : RegId.ofByte? 0 = some .ip := rfl
  refine ⟨fun h => ?_, fun rb q hq hne h => ?_, fun ra p hp hne h => ?_, fun lit h => ?_⟩
  · simpa using h.stepWrites_addRegReg hm hrun hip hip
  · simpa [hne] using h.stepWrites_addRegReg hm hrun hip hq
  · simpa [hne] using h.stepWrites_addRegReg hm hrun hp hip
  · exact ⟨_, (h.stepWith_eq hm hrun).trans (execMovLitReg_some hip lit _), by simp⟩

end Sys2Proof.Machine
end

section
/-! SUPPORT. The whole steps of the data transfer instructions (R100, R102, R104). A step that completes writes
the literal after its fetches; one whose operands are cut short halts at the fetch that fails (R121). -/

namespace Sys2Proof

theorem opcode_of_decodeOperands {op : Opcode} {bytes rest : List Byte} {i : Instr}
    (h : decodeOperands op bytes = some (i, rest)) : i.opcode = op := by
  unfold decodeOperands at h
  split at h <;> cases h <;> rfl

/-- Fewer bytes than the opcode's length asks for are no operands (R57). -/
theorem decodeOperands_of_length_lt {op : Opcode} {bytes : List Byte} (h : bytes.length + 1 < op.length) :
    decodeOperands op bytes = none := by
  rw [Option.eq_none_iff_forall_ne_some]
  rintro ⟨i, rest⟩ hd
  have hlen : bytes.length + 1 = op.length + rest.length := by
    rw [length_of_decodeOperands hd, Instr.length, opcode_of_decodeOperands hd]
  omega

theorem Instr.wf_movLitReg_of_le {rd : Byte} (h : 10 ≤ rd.toNat) (lit : Word) :
    (Instr.movLitReg lit rd).wf = false :=
  decide_eq_false (Nat.not_lt.2 h)

end Sys2Proof

namespace Sys2Proof.Machine

/-! ## The step of an instruction that stands at `ip` -/

/-- An instruction whose effect is one register write makes that write after its fetches (R19, R86). -/
theorem InstrAt.stepWrites {m : OpcodeMap} {i : Instr} {s : State} {r : RegId} {v : Word} (hm : m.wf = true)
    (hrun : s.run = .running) (h : InstrAt m i s)
    (he : exec i (s.advance i.length) = .next ((s.advance i.length).setReg r v)) :
    StepWrites m s r v ((s.reg .ip).toNat + i.length) := by
  refine ⟨_, (h.stepWith_eq hm hrun).trans he, hrun, by simp, fun hr => ?_, fun q hq hip => by simp [hq, hip], rfl⟩
  rw [State.reg_setReg, if_neg (Ne.symm hr)]
  exact State.toNat_ip_advance s i.length h.2

/-- An id that names no register halts the step after all fetches (R88, R124). -/
theorem InstrAt.stepHalts_of_not_wf {m : OpcodeMap} {i : Instr} {s : State} (hm : m.wf = true)
    (hrun : s.run = .running) (h : InstrAt m i s) (hwf : i.wf = false) :
    StepHalts m s .badMemoryAccess ((s.reg .ip).toNat + i.length) := by
  obtain ⟨rest, hd⟩ := h.decode_fetchable hm
  exact stepHalts_of_haltsFrom hrun (.inr ⟨i, rest, hd, hwf, rfl⟩)

/-! ## The step of an instruction cut short -/

theorem Memory.fetchEnd_le {mem : Memory} {a : Nat} : mem.fetchEnd ≤ a ↔ mem.size ≤ a ∨ Config.maxAddr ≤ a :=
  min_le_iff

theorem OpcodeAt.lt_fetchEnd {b : Byte} {s : State} (h : OpcodeAt b s) : (s.reg .ip).toNat < s.mem.fetchEnd :=
  Memory.lt_fetchEnd.2 ⟨Memory.isSome_getU8_iff.1 (by simp [h.1]), h.2⟩

theorem OpcodeAt.fetchable_eq {b : Byte} {s : State} (h : OpcodeAt b s) :
    s.mem.fetchable (s.reg .ip).toNat = b :: s.mem.fetchable ((s.reg .ip).toNat + 1) := by
  have hlt := h.lt_fetchEnd
  have hb := (Memory.getU8_lt (Memory.lt_fetchEnd.1 hlt).1).symm.trans h.1
  rw [Memory.fetchable_cons hlt, Option.some.inj hb]

/-- An opcode whose operands cannot all be fetched halts where its failing fetch stood (R121). -/
theorem OpcodeAt.stepHalts_of_cut {m : OpcodeMap} {b : Byte} {op : Opcode} {s : State} (hrun : s.run = .running)
    (h : OpcodeAt b s) (hop : m.opcodeOf b = some op) (hcut : s.mem.fetchEnd < (s.reg .ip).toNat + op.length) :
    StepHalts m s .badMemoryAccess
      ((s.reg .ip).toNat + (1 + operandsBeforeCut op (s.mem.fetchable ((s.reg .ip).toNat + 1)))) := by
  have hnone : decodeOperands op (s.mem.fetchable ((s.reg .ip).toNat + 1)) = none := by
    have hlt := h.lt_fetchEnd
    apply decodeOperands_of_length_lt
    rw [Memory.length_fetchable]
    omega
  refine stepHalts_of_haltsFrom hrun (.inl ⟨?_, ?_⟩)
  · simp [h.fetchable_eq, decode, hop, hnone]
  · rw [h.fetchable_eq, fetchedBeforeCut_cons hop]

/-- The three opcodes whose first operand is a literal halt right after the opcode when that literal cannot be
fetched: no byte of it is counted (R83, R121). -/
theorem OpcodeAt.stepHalts_of_literal_cut {m : OpcodeMap} {b : Byte} {op : Opcode} {s : State}
    (hrun : s.run = .running) (h : OpcodeAt b s) (hop : m.opcodeOf b = some op)
    (hlit : op = .movLitReg ∨ op = .movLitR1 ∨ op = .movLitR2)
    (hcut : s.mem.size ≤ (s.reg .ip).toNat + 2 ∨ 0xFFFE ≤ (s.reg .ip).toNat + 1) :
    StepHalts m s .badMemoryAccess ((s.reg .ip).toNat + 1) := by
  have hend : s.mem.fetchEnd ≤ (s.reg .ip).toNat + 2 := Memory.fetchEnd_le.2 (hcut.imp_right Nat.succ_le_succ)
  have hlen : (s.mem.fetchable ((s.reg .ip).toNat + 1)).length < 2 := by
    rw [Memory.length_fetchable]
    omega
  have hlong : 3 ≤ op.length := by rcases hlit with rfl | rfl | rfl <;> decide
  have hnone : operandsBeforeCut op (s.mem.fetchable ((s.reg .ip).toNat + 1)) = 0 := by
    rcases hlit with rfl | rfl | rfl
    · exact if_pos hlen
    · rfl
    · rfl
  simpa only [hnone] using h.stepHalts_of_cut hrun hop (by omega)

/-- MOV_LIT_REG whose literal can be fetched and whose register id cannot halts before the id (R100). -/
theorem OpcodeAt.stepHalts_of_id_cut {m : OpcodeMap} {b : Byte} {s : State} (hrun : s.run = .running)
    (h : OpcodeAt b s) (hop : m.opcodeOf b = some .movLitReg) (hlit : (s.reg .ip).toNat + 2 < s.mem.fetchEnd)
    (hid : s.mem.fetchEnd ≤ (s.reg .ip).toNat + 3) :
    StepHalts m s .badMemoryAccess ((s.reg .ip).toNat + 3) := by
  have hlen : ¬ (s.mem.fetchable ((s.reg .ip).toNat + 1)).length < 2 := by
    rw [Memory.length_fetchable]
    omega
  have htwo : operandsBeforeCut .movLitReg (s.mem.fetchable ((s.reg .ip).toNat + 1)) = 2 := if_neg hlen
  simpa only [htwo] using h.stepHalts_of_cut hrun hop (Nat.lt_succ_of_le hid)

/-! ## The statements -/

/-- Settles O28: the write or the halt follows the four fetches, and the fetchable bytes say which fetch fails. -/
theorem stepOfMovLitReg : Obligations.StepOfMovLitReg := by
  rintro m s lit rd _ hm hrun rfl
  have hop : m.opcodeOf m.movLitReg = some .movLitReg := OpcodeMap.opcodeOf_byteOf hm .movLitReg
  refine ⟨fun h => ⟨fun r hr => ?_, fun hrd => ?_⟩, fun h => ⟨fun hcut => ?_, fun hsize hip hcut => ?_⟩⟩
  · exact h.stepWrites hm hrun (execMovLitReg_some hr lit _)
  · exact h.stepHalts_of_not_wf hm hrun (Instr.wf_movLitReg_of_le hrd lit)
  · exact h.stepHalts_of_literal_cut hrun hop (.inl rfl) hcut
  · exact h.stepHalts_of_id_cut hrun hop (Memory.lt_fetchEnd.2 ⟨hsize, Nat.succ_lt_succ hip⟩)
      (Memory.fetchEnd_le.2 (hcut.imp_right Eq.ge))

/-- Settles O29: the destination is implied, so only the fetch of the literal can fail. -/
theorem stepOfMovLitR1AndR2 : Obligations.StepOfMovLitR1AndR2 := by
  rintro m s lit _ hm hrun rfl
  refine ⟨fun h => h.stepWrites hm hrun rfl, fun h => h.stepWrites hm hrun rfl, fun h hcut => ?_⟩
  rcases h with h | h
  · exact h.stepHalts_of_literal_cut hrun (OpcodeMap.opcodeOf_byteOf hm .movLitR1) (.inr (.inl rfl)) hcut
  · exact h.stepHalts_of_literal_cut hrun (OpcodeMap.opcodeOf_byteOf hm .movLitR2) (.inr (.inr rfl)) hcut

end Sys2Proof.Machine
end

section
/-! SUPPORT. The whole step of ADD_REG_REG (R106): its two operands are read after the fetches, and its two ids are
fetched one byte at a time, so each can be the one that is cut (R121). -/

namespace Sys2Proof

theorem Instr.wf_addRegReg_of_le {ra rb : Byte} (h : 10 ≤ ra.toNat ∨ 10 ≤ rb.toNat) :
    (Instr.addRegReg ra rb).wf = false :=
  Bool.and_eq_false_iff.2 (h.imp regIdOk_eq_false.2 regIdOk_eq_false.2)

end Sys2Proof

namespace Sys2Proof.Machine

/-- What a register reads after the fetches: only `ip` has moved (R87). -/
theorem State.reg_advance_eq_ofNat (s : State) (n : Nat) (r : RegId) :
    (s.advance n).reg r = BitVec.ofNat 16 (if r = .ip then (s.reg .ip).toNat + n else (s.reg r).toNat) := by
  rw [State.reg_advance]
  split
  · rw [BitVec.ofNat_add, BitVec.ofNat_toNat, BitVec.setWidth_eq]
  · rw [BitVec.ofNat_toNat, BitVec.setWidth_eq]

/-! ## The ids cut short -/

theorem OpcodeAt.stepHalts_of_first_id_cut {m : OpcodeMap} {b : Byte} {s : State} (hrun : s.run = .running)
    (h : OpcodeAt b s) (hop : m.opcodeOf b = some .addRegReg) (hcut : s.mem.fetchEnd ≤ (s.reg .ip).toNat + 1) :
    StepHalts m s .badMemoryAccess ((s.reg .ip).toNat + 1) := by
  have hlen : (s.mem.fetchable ((s.reg .ip).toNat + 1)).length < 1 := by
    rw [Memory.length_fetchable]
    omega
  have hnone : operandsBeforeCut .addRegReg (s.mem.fetchable ((s.reg .ip).toNat + 1)) = 0 := if_pos hlen
  simpa only [hnone] using h.stepHalts_of_cut hrun hop (Nat.lt_add_right 1 (Nat.lt_succ_of_le hcut))

theorem OpcodeAt.stepHalts_of_second_id_cut {m : OpcodeMap} {b : Byte} {s : State} (hrun : s.run = .running)
    (h : OpcodeAt b s) (hop : m.opcodeOf b = some .addRegReg) (hfirst : (s.reg .ip).toNat + 1 < s.mem.fetchEnd)
    (hcut : s.mem.fetchEnd ≤ (s.reg .ip).toNat + 2) :
    StepHalts m s .badMemoryAccess ((s.reg .ip).toNat + 2) := by
  have hlen : ¬ (s.mem.fetchable ((s.reg .ip).toNat + 1)).length < 1 := by
    rw [Memory.length_fetchable]
    omega
  have hone : operandsBeforeCut .addRegReg (s.mem.fetchable ((s.reg .ip).toNat + 1)) = 1 := if_neg hlen
  simpa only [hone] using h.stepHalts_of_cut hrun hop (Nat.lt_succ_of_le hcut)

/-! ## The statement -/

/-- Settles O30: the sum is of what both registers read after the three fetches, and the fetchable bytes say which
fetch fails. -/
theorem stepOfAddRegReg : Obligations.StepOfAddRegReg := by
  rintro m s ra rb _ hm hrun rfl
  have hop : m.opcodeOf m.addRegReg = some .addRegReg := OpcodeMap.opcodeOf_byteOf hm .addRegReg
  refine ⟨fun h => ⟨fun p q hp hq => ?_, fun hid => ?_⟩, fun h => ⟨fun hcut => ?_, fun hsize hip hcut => ?_⟩⟩
  · rw [BitVec.ofNat_add, ← State.reg_advance_eq_ofNat, ← State.reg_advance_eq_ofNat]
    exact h.stepWrites_addRegReg hm hrun hp hq
  · exact h.stepHalts_of_not_wf hm hrun (Instr.wf_addRegReg_of_le hid)
  · exact h.stepHalts_of_first_id_cut hrun hop (Memory.fetchEnd_le.2 (hcut.imp_right Eq.ge))
  · have hlt : (s.reg .ip).toNat + 1 < 0xFFFF := Nat.lt_of_le_of_ne h.2 hip
    exact h.stepHalts_of_second_id_cut hrun hop (Memory.lt_fetchEnd.2 ⟨hsize, hlt⟩)
      (Memory.fetchEnd_le.2 (hcut.imp_right Eq.ge))

end Sys2Proof.Machine
end

section
/-! SUPPORT. Control flow does not depend on data (R113): two engines with the same memory, `ip` and `run` stay
that way step by step, because both fetch the same instruction and only the jump, whose literal is in the
instruction, writes `ip`. -/

namespace Sys2Proof.Machine

/-! ## States that agree on memory, `ip` and `run` -/

theorem SameControl.advance {s t : State} (h : SameControl s t) (n : Nat) :
    SameControl (s.advance n) (t.advance n) := by
  obtain ⟨hmem, hip, hrun⟩ := h
  exact ⟨hmem, by simp [hip], hrun⟩

theorem SameControl.halt {s t : State} (h : SameControl s t) (reason : HaltReason) :
    SameControl (haltEntry reason s) (haltEntry reason t) := by
  obtain ⟨hmem, hip, -⟩ := h
  exact ⟨hmem, hip, rfl⟩

/-- Writes of one register keep the agreement, of different values too when the register is not `ip`. -/
theorem SameControl.setReg {s t : State} {r : RegId} {v w : Word} (h : SameControl s t) (hv : r = .ip → v = w) :
    SameControl (s.setReg r v) (t.setReg r w) := by
  obtain ⟨hmem, hip, hrun⟩ := h
  refine ⟨hmem, ?_, hrun⟩
  rw [State.reg_setReg, State.reg_setReg]
  split
  · next hr => exact hv hr.symm
  · exact hip

/-! ## One step -/

/-- Both outcomes are next states, and these agree on memory, `ip` and `run`. -/
def SameControlNext (x y : Host.Outcome State Fault Refusal) : Prop :=
  ∃ s t, x = .next s ∧ y = .next t ∧ SameControl s t

/-- An instruction writes no other register than its destination, and `ip` only as the jump. -/
theorem SameControl.exec_next {s t : State} (h : SameControl s t) (i : Instr) :
    SameControlNext (exec i s) (exec i t) := by
  cases i with
  | movLitReg lit rd =>
    cases hrd : RegId.ofByte? rd with
    | none => exact ⟨_, _, execMovLitReg_none hrd lit s, execMovLitReg_none hrd lit t, h.halt _⟩
    | some r => exact ⟨_, _, execMovLitReg_some hrd lit s, execMovLitReg_some hrd lit t, h.setReg fun _ => rfl⟩
  | movLitR1 lit => exact ⟨_, _, rfl, rfl, h.setReg fun _ => rfl⟩
  | movLitR2 lit => exact ⟨_, _, rfl, rfl, h.setReg fun _ => rfl⟩
  | addRegReg ra rb =>
    cases hwf : (Instr.addRegReg ra rb).wf with
    | false => exact ⟨_, _, exec_of_not_wf hwf s, exec_of_not_wf hwf t, h.halt _⟩
    | true =>
      obtain ⟨ha, hb⟩ := Bool.and_eq_true_iff.1 hwf
      obtain ⟨p, hp⟩ := RegId.ofByte?_some.2 ha
      obtain ⟨q, hq⟩ := RegId.ofByte?_some.2 hb
      exact ⟨_, _, execAddRegReg_some hp hq s, execAddRegReg_some hp hq t, h.setReg (by simp)⟩
  | endExec => exact ⟨_, _, rfl, rfl, h.halt _⟩

/-- What is fetched is read off the memory and `ip` alone. -/
theorem SameControl.stepWith_next {m : OpcodeMap} {s t : State} (h : SameControl s t) (hrun : s.run = .running) :
    SameControlNext (stepWith m s) (stepWith m t) := by
  have ⟨hmem, hip, hrun'⟩ := h
  have htrun : t.run = .running := hrun' ▸ hrun
  have hbytes : t.mem.fetchable (t.reg .ip).toNat = s.mem.fetchable (s.reg .ip).toNat := by rw [hmem, hip]
  cases hd : decode m (s.mem.fetchable (s.reg .ip).toNat) with
  | ok d =>
    obtain ⟨i, rest⟩ := d
    rw [stepWith_fetch_ok hrun (fetchInstr_of_decode_ok hd),
      stepWith_fetch_ok htrun (fetchInstr_of_decode_ok (hbytes ▸ hd))]
    exact (h.advance i.length).exec_next i
  | error e =>
    cases e with
    | unassigned b =>
      exact ⟨_, _, stepWith_fetch_halt hrun (fetchInstr_of_decode_unassigned hd),
        stepWith_fetch_halt htrun (fetchInstr_of_decode_unassigned (hbytes ▸ hd)), (h.advance 1).halt _⟩
    | truncated =>
      have ht := fetchInstr_of_decode_truncated (s := t) (hbytes ▸ hd)
      rw [hbytes] at ht
      exact ⟨_, _, stepWith_fetch_halt hrun (fetchInstr_of_decode_truncated hd), stepWith_fetch_halt htrun ht,
        (h.advance _).halt _⟩

/-! ## Any number of steps -/

/-- Settles O45: by induction on the number of steps, the first of which keeps the agreement. -/
theorem controlFlowIgnoresData : Obligations.ControlFlowIgnoresData := by
  intro m k
  induction k with
  | zero =>
    intro s t s' h hs
    cases hs
    exact ⟨t, rfl, h⟩
  | succ k ih =>
    intro s t s' h hs
    obtain ⟨u, hu, hs'⟩ := stepsWith_succ_next.1 hs
    obtain ⟨u', v, hu', hv, huv⟩ := h.stepWith_next (stepWith_cases hu).1
    cases hu.symm.trans hu'
    obtain ⟨t', ht', hsame⟩ := ih u v s' huv hs'
    exact ⟨t', stepsWith_succ_next.2 ⟨v, hv, ht'⟩, hsame⟩

end Sys2Proof.Machine
end

section
/-! SUPPORT. A run that comes back to an earlier `ip` never halts, and within 0x10000 steps every run that has not
halted does (R113). -/

namespace Sys2Proof.Machine

/-! ## The memory during a run -/

theorem stepWith_mem {m : OpcodeMap} {s t : State} (h : stepWith m s = .next t) : t.mem = s.mem := by
  rcases stepWith_cases_decode h with ⟨i, rest, -, he⟩ | ⟨r, n, -, -, rfl⟩
  · rcases exec_cases i (s.advance i.length) with ⟨r, v, -, -, hi⟩ | ⟨-, hi⟩ | ⟨-, hi⟩ <;>
      cases hi.symm.trans he <;> rfl
  · rfl

theorem stepsWith_mem {m : OpcodeMap} {k : Nat} {s t : State} (h : stepsWith m k s = .next t) : t.mem = s.mem := by
  induction k generalizing s with
  | zero => cases h; rfl
  | succ k ih =>
    obtain ⟨u, hu, h⟩ := stepsWith_succ_next.1 h
    exact (ih h).trans (stepWith_mem hu)

/-! ## Running for a number of steps -/

theorem stepsWith_sub {m : OpcodeMap} {j k : Nat} {s u v : State} (hjk : j ≤ k) (hu : stepsWith m j s = .next u)
    (hv : stepsWith m k s = .next v) : stepsWith m (k - j) u = .next v := by
  rw [← Nat.add_sub_cancel' hjk] at hv
  obtain ⟨w, hw, hwv⟩ := stepsWith_add.1 hv
  cases hu.symm.trans hw
  exact hwv

/-- The engine is still running after `k` steps; `RunsForever` asks this of every `k`. -/
def RunsFor (m : OpcodeMap) (k : Nat) (s : State) : Prop := ∃ t, stepsWith m k s = .next t ∧ t.run = .running

theorem runsFor_add {m : OpcodeMap} {j k : Nat} {s u : State} (h : stepsWith m j s = .next u) :
    RunsFor m (j + k) s ↔ RunsFor m k u := by
  constructor
  · rintro ⟨t, ht, hrun⟩
    obtain ⟨w, hw, ht⟩ := stepsWith_add.1 ht
    cases h.symm.trans hw
    exact ⟨t, ht, hrun⟩
  · rintro ⟨t, ht, hrun⟩
    exact ⟨t, stepsWith_add.2 ⟨u, h, ht⟩, hrun⟩

theorem run_eq_running_of_runsFor {m : OpcodeMap} {k : Nat} {s : State} (h : RunsFor m k s) : s.run = .running := by
  obtain ⟨t, ht, hrun⟩ := h
  cases k with
  | zero =>
    cases ht
    exact hrun
  | succ k =>
    obtain ⟨u, hu, -⟩ := stepsWith_succ_next.1 ht
    exact (stepWith_cases hu).1

/-- An engine that is running after `k` steps was running after every smaller number of them. -/
theorem RunsFor.of_le {m : OpcodeMap} {j k : Nat} {s : State} (h : RunsFor m k s) (hj : j ≤ k) : RunsFor m j s := by
  have ⟨t, ht, _⟩ := h
  obtain ⟨d, rfl⟩ := Nat.exists_eq_add_of_le hj
  obtain ⟨u, hu, -⟩ := stepsWith_add.1 ht
  exact ⟨u, hu, run_eq_running_of_runsFor ((runsFor_add hu).1 h)⟩

theorem RunsFor.of_sameControl {m : OpcodeMap} {k : Nat} {s t : State} (h : RunsFor m k s) (hst : SameControl s t) :
    RunsFor m k t := by
  obtain ⟨u, hu, hrun⟩ := h
  obtain ⟨v, hv, -, -, hsame⟩ := controlFlowIgnoresData m k s t u hst hu
  exact ⟨v, hv, hsame ▸ hrun⟩

/-! ## Coming back to an earlier `ip` -/

/-- A running engine that meets its own memory and `ip` again after `d` steps repeats those steps forever. -/
theorem runsForever_of_revisit {m : OpcodeMap} {d : Nat} {s t : State} (hd : 0 < d)
    (h : stepsWith m d s = .next t) (hst : SameControl s t) (hrun : s.run = .running) : RunsForever m s := by
  have rounds : ∀ n, RunsFor m (d * n) s := by
    intro n
    induction n with
    | zero => exact ⟨s, rfl, hrun⟩
    | succ n ih =>
      rw [Nat.mul_succ, Nat.add_comm, runsFor_add h]
      exact ih.of_sameControl hst
  exact fun k => (rounds k).of_le (Nat.le_mul_of_pos_left k hd)

theorem runsForever_of_stepsWith {m : OpcodeMap} {j : Nat} {s u : State} (h : stepsWith m j s = .next u)
    (hu : RunsForever m u) : RunsForever m s :=
  fun k => RunsFor.of_le ((runsFor_add h).2 (hu k)) (Nat.le_add_left k j)

/-- Of more than 0x10000 offsets in a row two are the same. -/
theorem exists_lt_ip_eq (u : Fin (0x10000 + 1) → State) : ∃ i j, i < j ∧ (u i).reg .ip = (u j).reg .ip := by
  obtain ⟨i, j, hne, hij⟩ := Fintype.exists_ne_map_eq_of_card_lt (fun k => ((u k).reg .ip).toFin) (by simp)
  rw [BitVec.toFin_inj] at hij
  rcases lt_or_gt_of_ne hne with hlt | hlt
  · exact ⟨i, j, hlt, hij⟩
  · exact ⟨j, i, hlt, hij.symm⟩

theorem runsForever_of_runsFor {m : OpcodeMap} {n : Nat} {s : State} (hn : 0x10000 ≤ n) (h : RunsFor m n s) :
    RunsForever m s := by
  have hall : ∀ k : Fin (0x10000 + 1), RunsFor m k s := fun k => h.of_le ((Nat.le_of_lt_succ k.isLt).trans hn)
  choose u hu hrun using hall
  obtain ⟨i, j, hij, hip⟩ := exists_lt_ip_eq u
  have hloop := stepsWith_sub (Nat.le_of_lt hij) (hu i) (hu j)
  have hsame : SameControl (u i) (u j) := ⟨(stepsWith_mem hloop).symm, hip, (hrun i).trans (hrun j).symm⟩
  exact runsForever_of_stepsWith (hu i) (runsForever_of_revisit (Nat.sub_pos_of_lt hij) hloop hsame (hrun i))

/-- Settles O46: two of the 0x10001 states so far have one `ip`, by the pigeonhole principle, and control flow
does not depend on data. -/
theorem noHaltIn65536StepsMeansNever : Obligations.NoHaltIn65536StepsMeansNever :=
  fun _ _ t h hrun => runsForever_of_runsFor le_rfl ⟨t, h, hrun⟩

end Sys2Proof.Machine
end

section
/-! SUPPORT. The steps of the control family: END, an unassigned opcode and an opcode fetch that fails (R82, R108,
R110), running off a loaded program (R109), and the jump (R112). -/

namespace Sys2Proof.Machine

/-! ## The opcode byte alone decides -/

theorem OpcodeAt.stepHalts_of_endExec {m : OpcodeMap} {s : State} (hm : m.wf = true) (hrun : s.run = .running)
    (h : OpcodeAt m.endExec s) : StepHalts m s .endOfExecution ((s.reg .ip).toNat + 1) := by
  refine stepHalts_of_haltsFrom hrun ⟨s.mem.fetchable ((s.reg .ip).toNat + 1), ?_, rfl⟩
  rw [h.fetchable_eq]
  exact decode_encode_append hm .endExec _

theorem OpcodeAt.stepHalts_of_unassigned {m : OpcodeMap} {b : Byte} {s : State} (hrun : s.run = .running)
    (h : OpcodeAt b s) (hb : m.opcodeOf b = none) :
    StepHalts m s .unexpectedInstruction ((s.reg .ip).toNat + 1) := by
  refine stepHalts_of_haltsFrom hrun ⟨b, ?_, rfl⟩
  simp [h.fetchable_eq, decode, hb]

/-- An opcode byte that cannot be fetched halts the step where it stands (R82). -/
theorem stepHalts_of_fetchEnd_le {m : OpcodeMap} {s : State} (hrun : s.run = .running)
    (h : s.mem.fetchEnd ≤ (s.reg .ip).toNat) : StepHalts m s .badMemoryAccess (s.reg .ip).toNat := by
  have hnil := Memory.fetchable_nil h
  exact stepHalts_of_haltsFrom hrun (.inl (by simp [hnil, decode, fetchedBeforeCut]))

/-- Settles O31: the opcode byte is all that is fetched, and at 0xFFFF not even that. -/
theorem stepOfEndAndOfUnassignedOpcode : Obligations.StepOfEndAndOfUnassignedOpcode := by
  refine fun m s b hm hrun => ⟨fun h => ⟨fun hb => ?_, fun hb => ?_⟩, fun htop => ?_⟩
  · subst hb
    exact h.stepHalts_of_endExec hm hrun
  · exact h.stepHalts_of_unassigned hrun hb
  · rw [← htop]
    exact stepHalts_of_fetchEnd_le hrun (Memory.fetchEnd_le.2 (.inr htop.ge))

/-! ## Past the end of a loaded program -/

theorem State.putBytes_of_load {s t : State} {p : List Byte} (h : s.load p = some t) :
    s.mem.putBytes 0 p = some t.mem := by
  unfold State.load at h
  split at h
  · cases h
  · obtain ⟨mem, hmem, rfl⟩ := Option.map_eq_some_iff.1 h
    exact hmem

theorem State.size_of_load_construct {n : Nat} {p : List Byte} {t : State}
    (h : (State.construct n).load p = some t) : t.mem.size = n :=
  (Memory.putBytes_wf (Memory.new_wf n) (State.putBytes_of_load h)).2

/-- A byte the load into a new engine did not write is 0 (R31). -/
theorem State.getU8_of_load_construct {n o : Nat} {p : List Byte} {t : State}
    (h : (State.construct n).load p = some t) (hp : p.length ≤ o) (ho : o < n) : t.mem.getU8 o = some 0 := by
  rw [Memory.getU8_putBytes (Memory.new_wf n) (State.putBytes_of_load h), if_neg (by omega)]
  exact Memory.getU8_new ho

/-- Settles O33: past the program the opcode byte is the unassigned 0, or there is none. -/
theorem runningOffTheProgramHalts : Obligations.RunningOffTheProgramHalts := by
  refine fun n p l s hload hmem hrun hp => ⟨fun hn htop => ?_, fun hn => ?_⟩
  · have hlt : (s.reg .ip).toNat < 0xFFFF := by omega
    have hzero : OpcodeAt 0 s := ⟨hmem ▸ State.getU8_of_load_construct hload hp hn, hlt⟩
    exact hzero.stepHalts_of_unassigned hrun (by decide)
  · have hsize : s.mem.size = n := hmem ▸ State.size_of_load_construct hload
    exact stepHalts_of_fetchEnd_le hrun (Memory.fetchEnd_le.2 (.inl (hsize.trans_le hn)))

/-! ## The jump -/

theorem State.setReg_reg_self (s : State) (r : RegId) : s.setReg r (s.reg r) = s :=
  State.ext_reg rfl (fun q => by simp; rintro rfl; rfl) rfl

/-- The literal replaces the advanced `ip`, so the jump is one write of `ip` (R87, R112). -/
theorem InstrAt.stepWith_jump {m : OpcodeMap} {s : State} {target : Word} (hm : m.wf = true)
    (hrun : s.run = .running) (h : InstrAt m (.movLitReg target 0) s) :
    stepWith m s = .next (s.setReg .ip target) := by
  rw [h.stepWith_eq hm hrun, ← State.setReg_setReg_same s .ip _ target]
  exact execMovLitReg_some rfl target _

/-- Settles O34: the jump writes `ip` alone; the next opcode fetch is what checks the target, and a jump to itself
comes back to its own state. -/
theorem movLitRegToIpIsAJump : Obligations.MovLitRegToIpIsAJump := by
  intro m s target hm hrun h
  have hstep := h.stepWith_jump hm hrun
  have hip : (s.setReg .ip target).reg .ip = target := by simp
  refine ⟨_, hstep, hip, hrun, fun q hq => by simp [hq], rfl, fun hbad => ?_, fun hself => ?_⟩
  · have hend : s.mem.fetchEnd ≤ target.toNat := Memory.fetchEnd_le.2 (hbad.imp_right Eq.ge)
    have hhalt := stepHalts_of_fetchEnd_le (m := m) (s := s.setReg .ip target) hrun (hip.symm ▸ hend)
    rwa [hip] at hhalt
  · subst hself
    rw [State.setReg_reg_self] at hstep ⊢
    have hone : stepsWith m 1 s = .next s := stepsWith_succ_of_next hstep 0
    exact ⟨rfl, runsForever_of_revisit Nat.one_pos hone ⟨rfl, rfl, rfl⟩ hrun⟩

end Sys2Proof.Machine
end

section
/-! SUPPORT. What a load leaves in memory: the loaded bytes over those that were there (R31, R142, R143). -/

namespace Sys2Proof.Machine

theorem State.exists_load {s : State} {p : List Byte} (h : p.length ≤ s.mem.size) : ∃ t, s.load p = some t := by
  obtain ⟨mem, hmem⟩ := Memory.putBytes_isSome s.mem 0 p (by omega)
  exact ⟨{ s with mem := mem }, by simp [State.load, hmem, h.not_gt]⟩

/-- R142: the bytes from 0 on are the loaded ones, and past them every byte keeps its value. -/
theorem State.getU8_of_load {s t : State} {p : List Byte} (hw : s.mem.wf = true) (h : s.load p = some t) (o : Nat) :
    t.mem.getU8 o = if o < p.length then p[o]? else s.mem.getU8 o := by
  simpa using Memory.getU8_putBytes hw (State.putBytes_of_load h) o

/-- A load overlays its bytes on the memory: the byte that was there is the default past the end of the load. -/
theorem State.getU8_of_load_getD {s t : State} {p : List Byte} {o : Nat} {b : Byte} (hw : s.mem.wf = true)
    (h : s.load p = some t) (hb : s.mem.getU8 o = some b) : t.mem.getU8 o = some (p.getD o b) := by
  rw [State.getU8_of_load hw h]
  split
  next hlt => rw [List.getD_eq_getElem _ _ hlt, List.getElem?_eq_getElem hlt]
  next hge => rw [List.getD_eq_default _ _ (Nat.le_of_not_lt hge), hb]

/-- Settles O3: the first load lies over the zeros of the new memory, and the second over what the first left. -/
theorem loadsOverwritePrefixes : Obligations.LoadsOverwritePrefixes := by
  intro n p q hp hq
  have zeros : ∀ o, o < n → (State.construct n).mem.getU8 o = some 0 := fun o ho => Memory.getU8_new ho
  obtain ⟨s, hs⟩ := State.exists_load (s := State.construct n) hp
  obtain ⟨t, ht⟩ := State.exists_load (hq.trans_eq (State.size_of_load_construct hs).symm)
  have first : ∀ o, o < n → s.mem.getU8 o = some (p.getD o 0) := fun o ho =>
    State.getU8_of_load_getD (Memory.new_wf n) hs (zeros o ho)
  refine ⟨zeros, s, t, hs, ht, first, fun o ho => ?_⟩
  rw [State.getU8_of_load_getD (State.load_wf (Memory.new_wf n) hs) ht (first o ho)]
  split
  next hlt => rw [List.getD_eq_getElem _ _ hlt, List.getD_eq_getElem _ _ hlt]
  next hge => rw [List.getD_eq_default _ _ (Nat.le_of_not_lt hge)]

end Sys2Proof.Machine
end

section
/-! SUPPORT. The encoding and the decoder, each the inverse of the other, and the opcode byte that fixes the length
(R56, R57, R66). -/

namespace Sys2Proof

/-- Settles O14: the opcode byte dispatches to its opcode, and the operands stand in encoded order. -/
theorem decodeEncodeGivesInstructionBack : Obligations.DecodeEncodeGivesInstructionBack :=
  fun _ hm i rest => decode_encode_append hm i rest

/-! ## From the bytes to their instruction -/

/-- The operands a decoder reads are the bytes the encoder writes after the opcode byte. -/
theorem encode_of_decodeOperands {op : Opcode} {bytes rest : List Byte} {i : Instr}
    (h : decodeOperands op bytes = some (i, rest)) (m : OpcodeMap) : m.byteOf op :: bytes = encode m i ++ rest := by
  unfold decodeOperands at h
  split at h <;> cases h <;> simp [encode]

/-- Settles O15: a byte dispatches only to the opcode whose byte it is, and its operands are encoded back. -/
theorem decodedBytesAreTheEncoding : Obligations.DecodedBytesAreTheEncoding := by
  intro m bytes i rest h
  obtain ⟨b, bs, op, rfl, hop, hd⟩ := decode_ok h
  rw [OpcodeMap.opcodeOf_some hop]
  exact encode_of_decodeOperands hd m

/-! ## Lengths -/

theorem length_encode (m : OpcodeMap) (i : Instr) : (encode m i).length = i.length := by cases i <;> rfl

/-- As many bytes as the opcode's length asks for are its operands, whatever they are (R57, R68). -/
theorem exists_decodeOperands {op : Opcode} {bytes : List Byte} (h : op.length ≤ bytes.length + 1) :
    ∃ i, decodeOperands op bytes = some (i, bytes.drop (op.length - 1)) := by
  cases op with
  | movLitReg =>
    match bytes, h with
    | hi :: lo :: rd :: _, _ => exact ⟨.movLitReg (joinBytes hi lo) rd, rfl⟩
  | movLitR1 | movLitR2 =>
    match bytes, h with
    | hi :: lo :: _, _ => exact ⟨_, rfl⟩
  | addRegReg =>
    match bytes, h with
    | ra :: rb :: _, _ => exact ⟨.addRegReg ra rb, rfl⟩
  | endExec => exact ⟨.endExec, rfl⟩

/-- Settles O16: the opcode decides how many operand bytes are read, and fewer are none. -/
theorem opcodeByteFixesLength : Obligations.OpcodeByteFixesLength := by
  refine fun m b rest => ⟨fun op hop => ⟨by cases op <;> rfl, fun hlen => ?_, fun hlen => ?_⟩, fun hop => ?_⟩
  · obtain ⟨i, hd⟩ := exists_decodeOperands hlen
    have hi : i.opcode = op := opcode_of_decodeOperands hd
    exact ⟨i, by simp [decode, hop, hd], hi, by rw [length_encode, Instr.length, hi]⟩
  · simp [decode, hop, decodeOperands_of_length_lt hlen]
  · simp [decode, hop]

/-! ## The register table -/

/-- Settles O9: each of the ten registers stands at its id, and an id of 10 or more is past the table. -/
theorem registerIdsArePositionsInNameTable : Obligations.RegisterIdsArePositionsInNameTable := by
  refine ⟨rfl, fun r => ⟨by cases r <;> rfl, RegId.ofByte?_toByte r, by cases r <;> rfl, RegId.ofName?_name r⟩,
    fun id => ?_⟩
  rw [RegId.ofByte?_none, regIdOk_eq_false]

/-! ## The default assignment -/

/-- A byte is unassigned exactly when it is none of the assignment's five bytes (R66). -/
theorem OpcodeMap.opcodeOf_eq_none {m : OpcodeMap} {b : Byte} : m.opcodeOf b = none ↔ b ∉ m.bytes := by
  simp [OpcodeMap.opcodeOf, OpcodeMap.bytes, ite_eq_iff]

/-- Settles O12: the five default bytes are distinct, and 0x00 is none of them. -/
theorem defaultOpcodesAreDistinct : Obligations.DefaultOpcodesAreDistinct :=
  ⟨by decide, rfl, OpcodeMap.opcodeOf_eq_none.2 (by decide), fun _ => OpcodeMap.opcodeOf_eq_none⟩

/-- Settles O13: five of the words are encodings under the default assignment, the other two are rejected. -/
theorem sampleWordsDecode : Obligations.SampleWordsDecode := by
  have hm : opcDefault.wf = true := by decide
  exact ⟨decode_encode_append hm (.movLitReg 0x1234 4) [], decode_encode_append hm (.movLitR1 0xBEEF) [],
    decode_encode_append hm (.movLitR2 0x0007) [], decode_encode_append hm (.addRegReg 2 3) [],
    decode_encode_append hm .endExec [0x13], rfl, rfl⟩

end Sys2Proof
end

section
/-! SUPPORT. The engine's invariant: it holds at reset, and every step keeps it, because a step keeps the memory and
its halts are precise (R46, R89, R119, R121). -/

namespace Sys2Proof.Machine

theorem State.haltExplained_of_running {m : OpcodeMap} {s : State} (h : s.run = .running) : s.HaltExplained m := by
  simp [State.HaltExplained, h]

theorem State.haltExplained_of_halted {m : OpcodeMap} {s : State} {reason : HaltReason} {a : Nat}
    (h : s.run = .halted reason) (hfrom : HaltsFrom m s.mem a reason (s.reg .ip).toNat) : s.HaltExplained m := by
  simpa only [State.HaltExplained, h] using ⟨a, hfrom⟩

/-- Settles O41: a step leaves the memory alone, and when it halts the bytes at the old `ip` explain the halt. -/
theorem stepKeepsInvariant : Obligations.StepKeepsInvariant := by
  rintro m s t ⟨hwf, -⟩ hstep
  have hmem : t.mem = s.mem := stepWith_mem hstep
  refine ⟨hmem ▸ hwf, ?_⟩
  cases hrun : t.run with
  | running => exact State.haltExplained_of_running hrun
  | halted reason =>
    obtain ⟨-, -, hfrom⟩ := haltsArePrecise m s t reason hstep hrun
    exact State.haltExplained_of_halted hrun (hmem ▸ hfrom)

theorem State.inv_construct (m : OpcodeMap) (n : Nat) : (State.construct n).Inv m :=
  ⟨Memory.new_wf n, State.haltExplained_of_running (State.construct_run n)⟩

/-- Settles O2: a new Memory is canonical and a new engine is running. -/
theorem resetStateHasInvariant : Obligations.ResetStateHasInvariant :=
  fun m => ⟨State.inv_construct m, State.inv_construct m _, rfl⟩

/-- Settles O42: no step writes memory. -/
theorem memoryIsConstantDuringRun : Obligations.MemoryIsConstantDuringRun :=
  fun _ _ _ _ h => stepsWith_mem h

end Sys2Proof.Machine
end

section
/-! SUPPORT. The canonical form of a Memory is unique: equal bytes are equal data. What the byte and the 16-bit
accesses have to do with each other (R38 to R41), and what a load leaves (R142). -/

namespace Sys2Proof.Machine

/-! ## Equal bytes are equal data -/

theorem readCells_head (k : Nat) (c : Byte) (cs : List Host.Cell) : readCells ((k, c) :: cs) k = c := by
  simp [readCells]

theorem readCells_cons_of_gt {k o : Nat} (h : k < o) (c : Byte) (cs : List Host.Cell) :
    readCells ((k, c) :: cs) o = readCells cs o := by
  simp [readCells, h.ne', h.not_gt]

/-- Where a list has its first cell another list that reads the same has one too, at no later offset. -/
theorem head_le_of_readCells_eq {size lo k k' : Nat} {c c' : Byte} {cs cs' : List Host.Cell}
    (h : cellsWf size lo ((k, c) :: cs) = true) (h' : cellsWf size lo ((k', c') :: cs') = true)
    (heq : ∀ o, o < size → readCells ((k, c) :: cs) o = readCells ((k', c') :: cs') o) : k' ≤ k := by
  obtain ⟨-, hk, hc, -⟩ := cellsWf_cons.1 h
  obtain ⟨-, hk', hc', htail'⟩ := cellsWf_cons.1 h'
  by_contra hlt
  have hfrom : cellsWf size k' ((k', c') :: cs') = true := cellsWf_cons.2 ⟨le_rfl, hk', hc', htail'⟩
  apply hc
  rw [← readCells_head k c cs, heq k hk, readCells_below hfrom (Nat.lt_of_not_le hlt)]

/-- Two canonical lists of cells that read the same are the same list. -/
theorem cells_eq_of_readCells_eq {size lo : Nat} {cs cs' : List Host.Cell} (h : cellsWf size lo cs = true)
    (h' : cellsWf size lo cs' = true) (heq : ∀ o, o < size → readCells cs o = readCells cs' o) : cs = cs' := by
  induction cs generalizing lo cs' with
  | nil =>
    cases cs' with
    | nil => rfl
    | cons x cs' =>
      obtain ⟨k, c⟩ := x
      obtain ⟨-, hk, hc, -⟩ := cellsWf_cons.1 h'
      exact absurd ((readCells_head k c cs').symm.trans (heq k hk).symm) hc
  | cons x cs ih =>
    obtain ⟨k, c⟩ := x
    cases cs' with
    | nil =>
      obtain ⟨-, hk, hc, -⟩ := cellsWf_cons.1 h
      exact absurd ((readCells_head k c cs).symm.trans (heq k hk)) hc
    | cons x' cs' =>
      obtain ⟨k', c'⟩ := x'
      obtain rfl : k = k' :=
        Nat.le_antisymm (head_le_of_readCells_eq h' h fun o ho => (heq o ho).symm) (head_le_of_readCells_eq h h' heq)
      obtain ⟨-, hk, -, htail⟩ := cellsWf_cons.1 h
      obtain ⟨-, -, -, htail'⟩ := cellsWf_cons.1 h'
      have hc : c = c' := by simpa only [readCells_head] using heq k hk
      have hcs : cs = cs' := ih htail htail' fun o ho => by
        by_cases hko : k < o
        · simpa only [readCells_cons_of_gt hko] using heq o ho
        · rw [readCells_below htail (by omega), readCells_below htail' (by omega)]
      rw [hc, hcs]

/-- Settles O8: below the size the bytes are the cells, and canonical cells that read the same are the same. -/
theorem canonicalMemoriesWithEqualBytesAreEqual : Obligations.CanonicalMemoriesWithEqualBytesAreEqual := by
  rintro ⟨size, cells⟩ ⟨size', cells'⟩ hw hw' hsize heq
  obtain rfl : size = size' := hsize
  have hcells : cells = cells' := cells_eq_of_readCells_eq hw hw' fun o ho =>
    Option.some.inj ((Memory.getU8_lt ho).symm.trans ((heq o).trans (Memory.getU8_lt ho)))
  rw [hcells]

/-! ## 16-bit accesses -/

theorem Memory.getU16_lt {m : Memory} {o : Nat} (h : o + 1 < m.size) :
    m.getU16 o = some (joinBytes (readCells m.cells o) (readCells m.cells (o + 1))) := by
  simp [Memory.getU16, h]

/-- A 16-bit read is its two bytes, the first the high one (R39, R41). -/
theorem Memory.getU16_of_getU8 {m : Memory} {o : Nat} {hi lo : Byte} (hhi : m.getU8 o = some hi)
    (hlo : m.getU8 (o + 1) = some lo) : m.getU16 o = some (joinBytes hi lo) := by
  have hlt : o + 1 < m.size := Memory.isSome_getU8_iff.1 (by simp [hlo])
  rw [Memory.getU8_lt (Nat.lt_of_succ_lt hlt), Option.some.injEq] at hhi
  rw [Memory.getU8_lt hlt, Option.some.injEq] at hlo
  rw [Memory.getU16_lt hlt, hhi, hlo]

/-- A 16-bit write is its two bytes, and every other byte reads as before (R41). -/
theorem Memory.getU8_setU16 {m m' : Memory} {o : Nat} {v : Word} (hw : m.wf = true) (h : m.setU16 o v = some m')
    (p : Nat) : m'.getU8 p = if p = o + 1 then some (loByte v) else if p = o then some (hiByte v) else m.getU8 p := by
  obtain ⟨-, m₁, hhi, hlo⟩ := Memory.setU16_some h
  rw [Memory.getU8_setU8 (Memory.setU8_wf hw hhi) hlo, Memory.getU8_setU8 hw hhi]

theorem Memory.setU16_size {m m' : Memory} {o : Nat} {v : Word} (h : m.setU16 o v = some m') : m'.size = m.size := by
  obtain ⟨-, m₁, hhi, hlo⟩ := Memory.setU16_some h
  exact (Memory.setU8_some hlo).2.1.trans (Memory.setU8_some hhi).2.1

theorem Memory.exists_setU16 {m : Memory} {o : Nat} (h : o + 1 < m.size) (v : Word) : ∃ m', m.setU16 o v = some m' :=
  Option.isSome_iff_exists.1 (Memory.isSome_setU16_iff.2 h)

/-- Settles O7: the write is read back byte by byte, and the 16-bit read joins two bytes. -/
theorem wordAccessIsTwoBigEndianBytes : Obligations.WordAccessIsTwoBigEndianBytes := by
  intro m o v hw ho
  constructor
  · obtain ⟨m', hm'⟩ := Memory.exists_setU16 ho v
    have hread := Memory.getU8_setU16 hw hm'
    have hhi : m'.getU8 o = some (hiByte v) := by simp [hread]
    have hlo : m'.getU8 (o + 1) = some (loByte v) := by simp [hread]
    refine ⟨m', hm', hiByte_eq v ▸ hhi, loByte_eq v ▸ hlo, ?_, fun p hp hp' => by simp [hread, hp, hp']⟩
    rw [Memory.getU16_of_getU8 hhi hlo, joinBytes_hi_lo]
  · exact ⟨_, _, _, Memory.getU16_lt ho, Memory.getU8_lt (Nat.lt_of_succ_lt ho), Memory.getU8_lt ho,
      toNat_joinBytes _ _⟩

/-! ## Loads -/

theorem State.load_eq_none {s : State} {p : List Byte} (h : s.mem.size < p.length) : s.load p = none := if_pos h

/-- A load replaces the memory and nothing else (R142). -/
theorem State.eq_of_load {s t : State} {p : List Byte} (h : s.load p = some t) : t = { s with mem := t.mem } := by
  unfold State.load at h
  split at h
  · cases h
  · obtain ⟨mem, -, rfl⟩ := Option.map_eq_some_iff.1 h
    rfl

theorem State.size_of_load {s t : State} {p : List Byte} (hw : s.mem.wf = true) (h : s.load p = some t) :
    t.mem.size = s.mem.size :=
  (Memory.putBytes_wf hw (State.putBytes_of_load h)).2

theorem State.length_le_of_load {s t : State} {p : List Byte} (h : s.load p = some t) : p.length ≤ s.mem.size := by
  by_contra hlong
  rw [State.load_eq_none (Nat.lt_of_not_le hlong)] at h
  cases h

/-- Settles O4: the length check comes first; then the bytes are written from 0 on, in memory alone. -/
theorem loadWritesProgramOrFails : Obligations.LoadWritesProgramOrFails := by
  refine fun s p hw => ⟨State.load_eq_none, fun hfits => ?_⟩
  obtain ⟨t, ht⟩ := State.exists_load hfits
  have hframe := State.eq_of_load ht
  exact ⟨t, ht, State.size_of_load hw ht, by rw [hframe], by rw [hframe], State.getU8_of_load hw ht⟩

/-- Settles O5: the second load writes the bytes that are there, and a canonical memory is its bytes. -/
theorem loadTwiceIsLoadOnce : Obligations.LoadTwiceIsLoadOnce := by
  intro s t p hw ht
  have hwt := State.load_wf hw ht
  have hsize := State.size_of_load hw ht
  obtain ⟨u, hu⟩ := State.exists_load ((State.length_le_of_load ht).trans_eq hsize.symm)
  have hmem : u.mem = t.mem := by
    refine canonicalMemoriesWithEqualBytesAreEqual _ _ (State.load_wf hwt hu) hwt (State.size_of_load hwt hu)
      fun o => ?_
    rw [State.getU8_of_load hwt hu, State.getU8_of_load hw ht]
    split <;> rfl
  rw [hu, State.eq_of_load hu, hmem]

end Sys2Proof.Machine
end

section
/-! SUPPORT. The register bank: the 20-byte Memory in which register `i` has the bytes `2i` and `2i + 1` (R24). -/

namespace Sys2Proof

theorem RegId.toNat_lt (r : RegId) : r.toNat < 10 := by cases r <;> decide

theorem RegId.toNat_inj {r q : RegId} : r.toNat = q.toNat ↔ r = q := by
  refine ⟨fun h => ?_, congrArg RegId.toNat⟩
  have hbyte : r.toByte = q.toByte := congrArg (BitVec.ofNat 8) h
  rw [← Option.some.injEq, ← RegId.ofByte?_toByte r, ← RegId.ofByte?_toByte q, hbyte]

theorem RegId.mem_all (r : RegId) : r ∈ RegId.all := by cases r <;> decide

theorem RegId.exists_toNat_eq : ∀ n < 10, ∃ r ∈ RegId.all, r.toNat = n := by decide

end Sys2Proof

namespace Sys2Proof.Machine

/-! ## The bank's bytes -/

/-- One register's two bytes written at its place in a bank. -/
def RegFile.putReg (f : RegFile) (m : Memory) (r : RegId) : Memory := (m.setU16 (2 * r.toNat) (f.get r)).getD m

theorem RegFile.bank_eq_foldl_putReg (f : RegFile) : f.bank = RegId.all.foldl f.putReg (Memory.new bankSize) := rfl

/-- The memory has the form of a register bank: canonical, with two bytes for each of the ten registers. -/
def Memory.BankForm (m : Memory) : Prop := m.wf = true ∧ m.size = 20

theorem Memory.bankForm_new : (Memory.new bankSize).BankForm := ⟨rfl, rfl⟩

/-- A 16-bit write at a register's place succeeds, keeps the form, and changes that register's bytes alone. -/
theorem Memory.BankForm.exists_setU16 {m : Memory} (h : m.BankForm) (r : RegId) (v : Word) :
    ∃ m', m.setU16 (2 * r.toNat) v = some m' ∧ m'.BankForm ∧ ∀ q : RegId,
      m'.getU8 (2 * q.toNat) = (if q = r then some (hiByte v) else m.getU8 (2 * q.toNat)) ∧
      m'.getU8 (2 * q.toNat + 1) = if q = r then some (loByte v) else m.getU8 (2 * q.toNat + 1) := by
  obtain ⟨hw, hsize⟩ := h
  have hr := r.toNat_lt
  obtain ⟨m', hm'⟩ := Memory.exists_setU16 (m := m) (o := 2 * r.toNat) (by omega) v
  refine ⟨m', hm', ⟨Memory.setU16_wf hw hm', (Memory.setU16_size hm').trans hsize⟩, fun q => ?_⟩
  have hhi : 2 * q.toNat = 2 * r.toNat ↔ q = r := by rw [← RegId.toNat_inj]; omega
  have hlo : 2 * q.toNat + 1 = 2 * r.toNat + 1 ↔ q = r := by rw [← RegId.toNat_inj]; omega
  have hodd : 2 * q.toNat ≠ 2 * r.toNat + 1 := by omega
  have heven : 2 * q.toNat + 1 ≠ 2 * r.toNat := by omega
  simp only [Memory.getU8_setU16 hw hm', hhi, hlo, hodd, heven, if_false, and_self]

/-- Memories of that form are equal when the bytes of every register are. -/
theorem Memory.BankForm.ext {m m' : Memory} (h : m.BankForm) (h' : m'.BankForm)
    (heq : ∀ r : RegId, m.getU8 (2 * r.toNat) = m'.getU8 (2 * r.toNat) ∧
      m.getU8 (2 * r.toNat + 1) = m'.getU8 (2 * r.toNat + 1)) : m = m' := by
  obtain ⟨hw, hsize⟩ := h
  obtain ⟨hw', hsize'⟩ := h'
  refine canonicalMemoriesWithEqualBytesAreEqual m m' hw hw' (hsize.trans hsize'.symm) fun o => ?_
  by_cases ho : o < 20
  · obtain ⟨r, -, hr⟩ := RegId.exists_toNat_eq (o / 2) (by omega)
    rcases Nat.mod_two_eq_zero_or_one o with hmod | hmod
    · rw [show o = 2 * r.toNat by omega, (heq r).1]
    · rw [show o = 2 * r.toNat + 1 by omega, (heq r).2]
  · rw [Memory.getU8_ge (by omega), Memory.getU8_ge (by omega)]

/-- Registers written one after another: the bytes of those written read back, the others read as before. -/
theorem Memory.BankForm.foldl_putReg (f : RegFile) {rs : List RegId} {m : Memory} (h : m.BankForm) :
    (rs.foldl f.putReg m).BankForm ∧ ∀ q : RegId,
      (rs.foldl f.putReg m).getU8 (2 * q.toNat) = (if q ∈ rs then some (hiByte (f.get q)) else m.getU8 (2 * q.toNat)) ∧
      (rs.foldl f.putReg m).getU8 (2 * q.toNat + 1) =
        if q ∈ rs then some (loByte (f.get q)) else m.getU8 (2 * q.toNat + 1) := by
  induction rs generalizing m with
  | nil => exact ⟨h, fun q => by simp⟩
  | cons r rs ih =>
    obtain ⟨m₁, hm₁, hform, hbytes⟩ := h.exists_setU16 r (f.get r)
    obtain ⟨hform', hbytes'⟩ := ih hform
    have hput : f.putReg m r = m₁ := by simp [RegFile.putReg, hm₁]
    rw [List.foldl_cons, hput]
    refine ⟨hform', fun q => ?_⟩
    obtain ⟨hhi, hlo⟩ := hbytes q
    obtain ⟨hhi', hlo'⟩ := hbytes' q
    rw [hhi', hlo', hhi, hlo]
    by_cases hq : q = r
    · simp [hq]
    · simp [hq]

theorem RegFile.bankForm_bank (f : RegFile) : f.bank.BankForm :=
  (Memory.bankForm_new.foldl_putReg f).1

theorem RegFile.getU8_bank (f : RegFile) (r : RegId) :
    f.bank.getU8 (2 * r.toNat) = some (hiByte (f.get r)) ∧
      f.bank.getU8 (2 * r.toNat + 1) = some (loByte (f.get r)) := by
  simpa only [RegFile.bank_eq_foldl_putReg, RegId.mem_all, if_true] using
    (Memory.bankForm_new.foldl_putReg f (rs := RegId.all)).2 r

/-- Writing a register's two bytes in the bank is writing the register (R24). -/
theorem RegFile.setU16_bank (f : RegFile) (r : RegId) (v : Word) :
    f.bank.setU16 (2 * r.toNat) v = some (f.set r v).bank := by
  obtain ⟨m', hm', hform, hbytes⟩ := f.bankForm_bank.exists_setU16 r v
  rw [hm', Option.some.injEq]
  refine hform.ext (RegFile.bankForm_bank _) fun q => ?_
  obtain ⟨hhi, hlo⟩ := hbytes q
  obtain ⟨hhi₀, hlo₀⟩ := f.getU8_bank q
  obtain ⟨hhi', hlo'⟩ := (f.set r v).getU8_bank q
  rw [hhi, hlo, hhi₀, hlo₀, hhi', hlo', RegFile.get_set]
  split <;> exact ⟨rfl, rfl⟩

/-- Settles O11: the bank reads back each register's two bytes, and an id of 10 or more lies past its end. -/
theorem registerBankIsTheRegisterFile : Obligations.RegisterBankIsTheRegisterFile := by
  intro f
  obtain ⟨hw, hsize⟩ := f.bankForm_bank
  refine ⟨hsize, hw, fun r v => ?_, fun id hid => ?_⟩
  · obtain ⟨hhi, hlo⟩ := f.getU8_bank r
    refine ⟨?_, hhi, hlo, f.setU16_bank r v⟩
    rw [Memory.getU16_of_getU8 hhi hlo, joinBytes_hi_lo]
  · rw [← Option.not_isSome_iff_eq_none, Memory.isSome_getU16_iff]
    omega

end Sys2Proof.Machine
end

section
/-! SUPPORT. The fetch primitives (R82, R83), and the engine's fetches as one with the decoder (R84, R121). -/

namespace Sys2Proof.Machine

/-! ## The primitives -/

theorem fetchU8_of_fetchEnd_le {s : State} (h : s.mem.fetchEnd ≤ (s.reg .ip).toNat) :
    fetchU8 s = .halt .badMemoryAccess s := by rw [fetchU8_eq, if_neg h.not_gt]

theorem fetchU16_of_fetchEnd_le {s : State} (h : s.mem.fetchEnd ≤ (s.reg .ip).toNat + 1) :
    fetchU16 s = .halt .badMemoryAccess s := by rw [fetchU16_eq, if_neg h.not_gt]

theorem State.reg_advance_of_ne {q : RegId} (hq : q ≠ .ip) (s : State) (n : Nat) : (s.advance n).reg q = s.reg q := by
  rw [State.reg_advance, if_neg hq]

/-- Settles O17: the byte can be fetched exactly when it is in memory and `ip` can step past it. -/
theorem fetchU8ReadsByteAndAdvances : Obligations.FetchU8ReadsByteAndAdvances := by
  refine fun s => ⟨fun hsize => ?_, fun htop => ?_, fun hsize htop => ?_⟩
  · exact fetchU8_of_fetchEnd_le (Memory.fetchEnd_le.2 (.inl hsize))
  · exact fetchU8_of_fetchEnd_le (Memory.fetchEnd_le.2 (.inr htop.ge))
  · have hip : (s.reg .ip).toNat < Config.maxAddr := Nat.lt_of_le_of_ne (Nat.le_of_lt_succ (s.reg .ip).isLt) htop
    refine ⟨_, s.advance 1, Memory.getU8_lt hsize, ?_, State.toNat_ip_advance s 1 hip,
      fun q hq => State.reg_advance_of_ne hq s 1, rfl, rfl⟩
    rw [fetchU8_eq, if_pos (Memory.lt_fetchEnd.2 ⟨hsize, hip⟩)]

/-- Settles O18: the word can be fetched exactly when its second byte is in memory and `ip` can step past it. -/
theorem fetchU16ReadsWordAndAdvances : Obligations.FetchU16ReadsWordAndAdvances := by
  refine fun s => ⟨fun hsize => ?_, fun htop => ?_, fun hsize htop => ?_⟩
  · exact fetchU16_of_fetchEnd_le (Memory.fetchEnd_le.2 (.inl hsize))
  · exact fetchU16_of_fetchEnd_le (Memory.fetchEnd_le.2 (.inr (Nat.succ_le_succ htop)))
  · have hip : (s.reg .ip).toNat + 1 < Config.maxAddr := Nat.succ_lt_succ htop
    refine ⟨_, _, _, s.advance 2, Memory.getU8_lt (Nat.lt_of_succ_lt hsize), Memory.getU8_lt hsize,
      toNat_joinBytes _ _, ?_, State.toNat_ip_advance s 2 hip, fun q hq => State.reg_advance_of_ne hq s 2, rfl, rfl⟩
    rw [fetchU16_eq, if_pos (Memory.lt_fetchEnd.2 ⟨hsize, hip⟩)]

/-! ## Whole steps -/

/-- Settles O20: the decoder's answer on the fetchable bytes decides how the fetches end, and they the step. -/
theorem engineFetchRefinesDecoder : Obligations.EngineFetchRefinesDecoder := by
  intro m s hrun
  cases hd : decode m (s.mem.fetchable (s.reg .ip).toNat) with
  | ok d => exact stepWith_fetch_ok hrun (fetchInstr_of_decode_ok hd)
  | error e =>
    cases e with
    | unassigned b => exact stepWith_fetch_halt hrun (fetchInstr_of_decode_unassigned hd)
    | truncated => exact stepWith_fetch_halt hrun (fetchInstr_of_decode_truncated hd)

/-- Settles O19: the default assignment is injective, so the instruction at `ip` is the one that is fetched. -/
theorem stepRunsInstructionAtIp : Obligations.StepRunsInstructionAtIp :=
  fun _ _ hrun h => h.stepWith_eq (by decide) hrun

/-- Settles O32: where nothing can be fetched the opcode fetch is the one that fails. -/
theorem opcodeFetchFailureHalts : Obligations.OpcodeFetchFailureHalts :=
  fun _ _ hrun h => stepHalts_of_fetchEnd_le hrun (Memory.fetchEnd_le.2 (h.imp_right Eq.ge))

end Sys2Proof.Machine
end

section
/-! SUPPORT. The effect of each instruction and its frame (R16, R88, R100 to R108). -/

namespace Sys2Proof.Machine

theorem State.reg_setReg_of_ne {r q : RegId} (hq : q ≠ r) (s : State) (v : Word) : (s.setReg r v).reg q = s.reg q := by
  rw [State.reg_setReg, if_neg hq]

theorem State.reg_setReg_self (s : State) (r : RegId) (v : Word) : (s.setReg r v).reg r = v := by
  rw [State.reg_setReg, if_pos rfl]

/-- Settles O26: an instruction writes its destination, or halts and writes no register. -/
theorem instructionsWriteOnlyTheirDestination : Obligations.InstructionsWriteOnlyTheirDestination := by
  intro i s
  rcases exec_cases i s with ⟨r, v, hwf, hdest, he⟩ | ⟨rfl, he⟩ | ⟨hwf, he⟩
  · refine ⟨_, he, rfl, fun q hq => State.reg_setReg_of_ne ?_ s v, fun _ _ => rfl, fun hbad => ?_⟩
    · rintro rfl
      exact hq hdest
    · rw [hwf] at hbad
      cases hbad
  · exact ⟨_, he, rfl, fun _ _ => rfl, fun _ hend => absurd rfl hend, fun hbad => nomatch hbad⟩
  · refine ⟨_, he, rfl, fun _ _ => rfl, fun hok => ?_, fun _ => ⟨rfl, fun _ => rfl⟩⟩
    rw [hwf] at hok
    cases hok

/-- Settles O27: with two valid ids the sum commutes; with an invalid one, first or second, both halt alike. -/
theorem addRegRegCommutes : Obligations.AddRegRegCommutes := by
  intro ra rb s
  cases ha : RegId.ofByte? ra with
  | none => exact (execAddRegReg_none (.inl ha) s).trans (execAddRegReg_none (.inr ha) s).symm
  | some p =>
    cases hb : RegId.ofByte? rb with
    | none => exact (execAddRegReg_none (.inr hb) s).trans (execAddRegReg_none (.inl hb) s).symm
    | some q =>
      refine (execAddRegReg_some ha hb s).trans ?_
      rw [BitVec.add_comm]
      exact (execAddRegReg_some hb ha s).symm

/-- Settles O21: the write names the register by its id, and it alone changes. -/
theorem movLitRegWritesNamedRegister : Obligations.MovLitRegWritesNamedRegister :=
  fun lit _ r s hr => ⟨_, execMovLitReg_some hr lit s, State.reg_setReg_self s r lit,
    fun _ hq => State.reg_setReg_of_ne hq s lit, rfl, rfl⟩

/-- Settles O22: the destination is implied by the opcode, and it alone changes. -/
theorem movLitR1AndR2WriteFixedRegister : Obligations.MovLitR1AndR2WriteFixedRegister :=
  fun lit s => ⟨⟨s.setReg .r1 lit, rfl, State.reg_setReg_self s .r1 lit,
      fun _ hq => State.reg_setReg_of_ne hq s lit, rfl, rfl⟩,
    ⟨s.setReg .r2 lit, rfl, State.reg_setReg_self s .r2 lit, fun _ hq => State.reg_setReg_of_ne hq s lit, rfl, rfl⟩⟩

/-- Settles O23: both sources are read before `acc` is written, and 16-bit addition drops the carry. -/
theorem addRegRegWritesWrappedSum : Obligations.AddRegRegWritesWrappedSum := by
  intro ra rb p q s hp hq
  refine ⟨_, execAddRegReg_some hp hq s, ?_, fun r hr => State.reg_setReg_of_ne hr s _, rfl, rfl⟩
  rw [State.reg_setReg_self, BitVec.toNat_add]

/-- Settles O24: END's whole effect is the entry to `halted`. -/
theorem endHaltsSuccessfully : Obligations.EndHaltsSuccessfully :=
  fun s => ⟨haltEntry .endOfExecution s, rfl, rfl, fun _ => rfl, rfl⟩

/-- Settles O25: an instruction with such an id is not well formed, so its whole effect is the halt entry. -/
theorem invalidRegisterIdHalts : Obligations.InvalidRegisterIdHalts := by
  intro lit a b s
  refine ⟨fun ha => ?_, fun hab => ?_⟩
  · exact ⟨_, exec_of_not_wf (Instr.wf_movLitReg_of_le ha lit) s, rfl, fun _ => rfl, rfl⟩
  · exact ⟨_, exec_of_not_wf (Instr.wf_addRegReg_of_le hab) s, rfl, fun _ => rfl, rfl⟩

end Sys2Proof.Machine
end

section
/-! SUPPORT. The host's calls: what they write after the first step, a load that fails, and `get` (R25, R142,
R144). -/

namespace Sys2Proof.Machine

/-! ## The memory under the host's step and run -/

theorem hostStep_mem (m : OpcodeMap) (s : State) : (hostStep m s).1.mem = s.mem := by
  cases hrun : s.run with
  | running =>
    obtain ⟨t, ht⟩ := stepWith_running (m := m) hrun
    rw [hostStep_of_next ht]
    exact stepWith_mem ht
  | halted reason => rw [hostStep_halted hrun]

/-- The state a run loop ends in, halted or out of fuel. -/
def RunEnd.state : RunEnd → State
  | .halted s => s
  | .outOfFuel s => s

theorem runLoop_state_mem (m : OpcodeMap) (fuel : Nat) (s : State) : (runLoop m fuel s).state.mem = s.mem := by
  induction fuel generalizing s with
  | zero => rfl
  | succ fuel ih =>
    have hmem := hostStep_mem m s
    generalize hstep : hostStep m s = r at hmem
    obtain ⟨u, status⟩ := r
    cases status with
    | halted => simpa only [runLoop, hstep, RunEnd.state] using hmem
    | goesOn => simpa only [runLoop, hstep] using (ih u).trans hmem

/-! ## The calls one by one -/

theorem hostRunCall_started (m : OpcodeMap) (fuel : Nat) (s : State) :
    ∃ reply, hostRunCall m fuel ⟨s, .started⟩ = .next (reply, ⟨(runLoop m fuel s).state, .started⟩) := by
  cases hloop : runLoop m fuel s with
  | halted t => exact ⟨.returned, by simp [hostRunCall, hloop, RunEnd.state]⟩
  | outOfFuel t => exact ⟨.outOfFuel, by simp [hostRunCall, hloop, RunEnd.state]⟩

theorem hostGet_session {name : String} {h h' : Session} {reply : HostReply}
    (hcall : hostGet name h = .next (reply, h')) : h' = h := by
  unfold hostGet at hcall
  split at hcall <;> cases hcall
  rfl

theorem hostReadMem_session {offset count : Nat} {h h' : Session} {reply : HostReply}
    (hcall : hostReadMem offset count h = .next (reply, h')) : h' = h := by
  unfold hostReadMem at hcall
  split at hcall <;> cases hcall <;> rfl

theorem hostLoad_of_size_lt {p : List Byte} {h : Session} (hphase : h.phase ≠ .started)
    (hlong : h.engine.mem.size < p.length) :
    hostLoad p h = .next (.outOfBounds, { h with phase := .loadFailed }) := by
  have hnone := State.load_eq_none hlong
  cases hp : h.phase with
  | started => exact absurd hp hphase
  | loading => simp [hostLoad, hp, hnone]
  | loadFailed => simp [hostLoad, hp, hnone]

/-! ## The statements -/

/-- Settles O47: of the calls that are answered after the first step only `step` and `run` change the engine, and
they change it by steps, which keep the memory. -/
theorem hostWritesOnlyBeforeFirstStep : Obligations.HostWritesOnlyBeforeFirstStep := by
  rintro m c ⟨s, phase⟩ hphase
  obtain rfl : phase = .started := hphase
  refine ⟨fun _ => rfl, fun reply h' hcall => ?_⟩
  cases c with
  | load p => nomatch hcall
  | step =>
    cases hcall
    exact ⟨rfl, hostStep_mem m s, fun hne => absurd rfl hne⟩
  | run fuel =>
    obtain ⟨r, hrun⟩ := hostRunCall_started m fuel s
    cases hrun.symm.trans hcall
    exact ⟨rfl, runLoop_state_mem m fuel s, fun _ hne => absurd rfl (hne fuel)⟩
  | status | dump =>
    cases hcall
    exact ⟨rfl, rfl, fun _ _ => rfl⟩
  | get name =>
    cases hostGet_session hcall
    exact ⟨rfl, rfl, fun _ _ => rfl⟩
  | readMem offset count =>
    cases hostReadMem_session hcall
    exact ⟨rfl, rfl, fun _ _ => rfl⟩

/-- Settles O48: the load that is too long only moves the host to the phase in which it may not launch. -/
theorem failedLoadBlocksLaunch : Obligations.FailedLoadBlocksLaunch :=
  fun _ _ h hphase hlong => ⟨{ h with phase := .loadFailed }, hostLoad_of_size_lt hphase hlong, rfl, rfl, fun _ => rfl⟩

/-- Settles O49: the names of the table are looked up there, and no other name is found. -/
theorem hostGetReadsNamedRegister : Obligations.HostGetReadsNamedRegister := by
  refine fun m h name => ⟨fun r hname => ?_, fun hother => ?_⟩
  · subst hname
    simp [hostCall, hostGet, RegId.ofName?_name]
  · have hnone : RegId.ofName? name = none := by
      rw [Option.eq_none_iff_forall_ne_some]
      exact fun r hr => hother r (RegId.name_of_ofName? hr).symm
    simp [hostCall, hostGet, hnone]

end Sys2Proof.Machine
end
